-- ==== Sys2Proof/Word.lean ====
section
/-! DEFINITION. The word types of TTC-FCLS: a byte is 8 bits (20_memory.md R81). -/

namespace Sys2Proof

/-- One byte of a frame or of an 8-bit register (20_memory.md R81). -/
abbrev Byte := BitVec 8

/-- A 16-bit offset field of the relative frame (30_encoding.md R115). -/
abbrev Half := BitVec 16

/-- A 32-bit field or register: a coordinate field of the absolute frame, the frequency pattern, the
receive timeout (30_encoding.md R114, 10_state.md R55, R57). -/
abbrev Word := BitVec 32

end Sys2Proof
end

