-- ==== Sys2Proof/Config.lean ====
section
/-! DEFINITION. What an implementation fixes (00_scope.md section 3) and the values the spec leaves free.
The parameters are a record that State carries and no step writes, so that a statement about every state
holds for every choice of them (log 1). The opaque constants have no body that a proof can see. -/

namespace Sys2Proof

/-- `BYTE_ORDER` (00_scope.md R13). -/
inductive ByteOrder where
  | le | be
  deriving DecidableEq, Repr

/-- `ROUND` (00_scope.md R14). -/
inductive RoundMode where
  | halfAwayFromZero | halfToEven
  deriving DecidableEq, Repr

/-- `RANGE_POLICY` (00_scope.md R15). -/
inductive RangePolicy where
  | fault | wrap
  deriving DecidableEq, Repr

/-- Which of the three blocking delays a `Delay` event of the trace names (10_state.md R58). -/
inductive DelayKind where
  | resetLow | resetHigh | blink
  deriving DecidableEq, Repr

/-- What the peripheral does with a `RECVBYTES` exchange (42_radio_port.md R228): it answers nothing, it
answers a byte sequence, or it has not answered yet (log 6). -/
inductive RecvDraw where
  | nothing
  | bytes (l : List Byte)
  | withheld
  deriving DecidableEq, Repr, Inhabited

/-- The parameters of one unit (00_scope.md R13 to R20). -/
structure Params where
  byteOrder   : ByteOrder
  round       : RoundMode
  rangePolicy : RangePolicy
  /-- `COORD_DEN`: register units in one degree (R16). -/
  coordDen    : Nat
  /-- `COORD_W`: the width of a coordinate register (R16). -/
  coordW      : Nat
  /-- `AGE_W`: the width of `IAGE` (R17). -/
  ageW        : Nat
  /-- `REF_LAT_Q`, in register units (R18). -/
  refLatQ     : Int
  /-- `REF_LON_Q`, in register units (R18). -/
  refLonQ     : Int
  /-- `RX_CAP`: the capacity of the receive buffer (R19). -/
  rxCap       : Nat
  /-- `USE_BOOST_PIN` (R20). -/
  useBoostPin : Bool
  deriving DecidableEq, Repr

namespace Config

/-- `MAGIC` byte 0 (00_scope.md R10). -/
def magic0 : Byte := 0x3f
/-- `MAGIC` byte 1 (00_scope.md R10). -/
def magic1 : Byte := 0x58
/-- `ABS_LEN` (00_scope.md R11). -/
def absLen : Nat := 9
/-- `REL_LEN` (00_scope.md R11; 7, not 5: 90_conflicts.md C1). -/
def relLen : Nat := 7
/-- `ABS_SCALE` (00_scope.md R12). -/
def absScale : Nat := 1000000
/-- `REL_SCALE` (00_scope.md R12). -/
def relScale : Nat := 100000
/-- `TXP_MIN` (00_scope.md R22). -/
def txpMin : Int := 5
/-- `TXP_MAX` (00_scope.md R22). -/
def txpMax : Int := 23
/-- `AGE_SENTINEL` (00_scope.md R23). -/
def ageSentinel : Byte := 255
/-- `REL_MAX` (00_scope.md R24; 90_conflicts.md C2). -/
def relMax : Int := 32767
/-- `ABS_MIN` (00_scope.md R24). -/
def absMin : Int := -2147483648
/-- `ABS_MAX` (00_scope.md R24). -/
def absMax : Int := 2147483647

/-- `USE_BOOST_PIN` of the unit that State.reset describes: OPEN (00_scope.md R20; log 14). -/
opaque useBoostPin : Bool
/-- `T_RESET_LOW`: OPEN (00_scope.md R21; log 14). -/
opaque tResetLow : Nat
/-- `T_RESET_HIGH`: OPEN (00_scope.md R21; log 14). -/
opaque tResetHigh : Nat

/-- How long the delay that a `Delay` event names lasts, in milliseconds; no rule reads it
(00_scope.md R21, 70_reset_and_hazards.md R300). -/
def duration : DelayKind → Nat
  | .resetLow => tResetLow
  | .resetHigh => tResetHigh
  | .blink => 100

/-- The free answer to a `BRINGUP` exchange (00_scope.md R33; log 5). -/
opaque freeBringup : Nat → Bool
/-- The free answer to a `SETFREQ` exchange (00_scope.md R33; log 5). -/
opaque freeSetfreq : Nat → Bool
/-- The free answer to a `SENDBYTES` exchange (00_scope.md R33; log 5). -/
opaque freeSendbytes : Nat → Bool
/-- The free answer to a `RECVBYTES` exchange (00_scope.md R33; log 5). -/
opaque freeRecvbytes : Nat → RecvDraw

/-- The defaults of 00_scope.md R13 to R19. -/
def defaults : Params where
  byteOrder := .le
  round := .halfAwayFromZero
  rangePolicy := .fault
  coordDen := 10000000
  coordW := 64
  ageW := 32
  refLatQ := 407859800
  refLonQ := -1192058400
  rxCap := 16
  useBoostPin := useBoostPin

end Config

end Sys2Proof
end

