-- ==== Sys2Proof/Syntax.lean ====
section
/-! DEFINITION. The instructions of TTC-FCLS: one constructor for each row of spec/opcode_table.json. -/

namespace Sys2Proof

/-- The rows of spec/opcode_table.json. Seven host commands, eight radio-port operations with their typed
arguments (30_encoding.md R124, R125), the two frame formats with their fields (R114, R115) and the
reserved command bytes (R113). -/
inductive Instr where
  /-- Command 0x01 (40_payload_codec.md R155). -/
  | encAbs
  /-- Command 0x02 (40_payload_codec.md R157). -/
  | decAbs
  /-- Command 0x03 (40_payload_codec.md R160). -/
  | encRel
  /-- Command 0x04 (40_payload_codec.md R163). -/
  | decRel
  /-- Command 0x10 (41_link_layer.md R185). -/
  | init
  /-- Command 0x11 (41_link_layer.md R200). -/
  | send
  /-- Command 0x12 (41_link_layer.md R202). -/
  | recv
  /-- Port operation 0x0 (42_radio_port.md R221). -/
  | reset (pin : Byte)
  /-- Port operation 0x1 (42_radio_port.md R222). -/
  | bringup (cs irq : Byte)
  /-- Port operation 0x2 (42_radio_port.md R223). -/
  | setfreq (mhz : Word)
  /-- Port operation 0x3 (42_radio_port.md R224). -/
  | setaddr (id : Byte)
  /-- Port operation 0x4 (42_radio_port.md R225). -/
  | setpromisc (on : Bool)
  /-- Port operation 0x5 (42_radio_port.md R226); `dbm` is signed. -/
  | settxpower (dbm : Byte) (boost : Bool)
  /-- Port operation 0x6 (42_radio_port.md R227). -/
  | sendbytes (buf : List Byte)
  /-- Port operation 0x7 (42_radio_port.md R228). -/
  | recvbytes (tmoEn : Bool) (tmo : Word)
  /-- The absolute frame F-ABS by its fields (30_encoding.md R114). -/
  | frameAbs (lat lon : Word) (age : Byte)
  /-- The relative frame F-REL by its fields after the magic (30_encoding.md R115). -/
  | frameRel (dlat dlon : Half) (age : Byte)
  /-- A command byte that selects no command (30_encoding.md R113). -/
  | illegal (opcode : Byte)
  deriving DecidableEq, Repr

/-- The four encoding formats of 30_encoding.md (R110, R114, R115, R124). -/
inductive Format where
  | cmd | port | abs | rel
  deriving DecidableEq, Repr

/-- The format the opcode table gives each row. -/
def Instr.format : Instr → Format
  | .encAbs | .decAbs | .encRel | .decRel | .init | .send | .recv | .illegal _ => .cmd
  | .reset _ | .bringup _ _ | .setfreq _ | .setaddr _ | .setpromisc _ | .settxpower _ _
  | .sendbytes _ | .recvbytes _ _ => .port
  | .frameAbs _ _ _ => .abs
  | .frameRel _ _ _ => .rel

end Sys2Proof
end

