-- ==== Sys2Proof/Machine/State.lean ====
section
/-! DEFINITION. The state of TTC-FCLS: every register, buffer and line of 10_state.md, and the model's own
fields for the agents outside the block (INVENTORY.md, State). Plain data. -/

namespace Sys2Proof.Machine

/-- The codes `STATUS` can hold (10_state.md R51); codes 10 to 15 are never produced (log 17). -/
inductive Status where
  | ok | badMagic | badLength | sendError | receiveError | fatalInit | encRange | wrongState
  | cfgInvalid | illegalCmd
  deriving DecidableEq, Repr

/-- The states `LSTATE` can hold (10_state.md R52); codes 5 to 7 are never produced (log 17). -/
inductive LState where
  | uninitialized | resetting | initializing | ready | faulted
  deriving DecidableEq, Repr

/-- The two causes of the fatal exception (10_state.md R54, 60_exceptions.md R245). -/
inductive InitCause where
  | bringUp | setFreq
  deriving DecidableEq, Repr

/-- The exceptions of 60_exceptions.md R241 to R249. -/
inductive Exc where
  | badMagic | badLength | sendError | receiveError
  | fatalInit (c : InitCause)
  | encRange | wrongState | cfgInvalid | illegalCmd
  deriving DecidableEq, Repr

/-- The seven fields of the radio configuration: the `CFG_*` registers (10_state.md R55) and their latched
copy `LCFG` (R56). -/
structure LinkCfg where
  addr     : Byte
  freq     : Word
  txpEn    : Bool
  txp      : Byte
  resetPin : Byte
  csPin    : Byte
  irqPin   : Byte
  deriving DecidableEq, Repr

/-- The answer of the radio peripheral that a `PortCall` event records (10_state.md R58, 30_encoding.md
R125). -/
inductive Answer where
  /-- The operation has no answer. -/
  | none
  /-- The Boolean of `BRINGUP`, `SETFREQ`, `SENDBYTES`. -/
  | bool (b : Bool)
  /-- `RECVBYTES` answered nothing. -/
  | nothing
  /-- The byte sequence `RECVBYTES` delivered. -/
  | bytes (l : List Byte)
  deriving DecidableEq, Repr

/-- The events of `TRACE` (10_state.md R58). The operation and arguments of a `PortCall` are the port
instruction itself. -/
inductive Event where
  | rstLine (pin : Byte) (level : Bool)
  | delay (which : DelayKind)
  | portCall (op : Instr) (answer : Answer)
  | indToggle (level : Bool)
  deriving DecidableEq, Repr

/-- A host access still to come (00_scope.md R31, log 7). -/
inductive HostOp where
  /-- `HostWrite(n, v)` (20_memory.md R100); with `n = 0x00` it issues a command (R102). -/
  | write (n : BitVec 8) (v : Int)
  /-- `HostRead(n)` (20_memory.md R101). -/
  | read (n : BitVec 8)
  /-- The pseudo-instruction `LOADRX` (30_encoding.md R131). -/
  | loadRx (bytes : List Byte)
  deriving DecidableEq, Repr

/-- The radio peripheral as the block meets it (00_scope.md R33): the answers still to come, one queue for
each answering operation, and the index of the next free answer, used when a queue is empty (log 5). -/
structure Radio where
  bringup   : List Bool
  setfreq   : List Bool
  sendbytes : List Bool
  recvbytes : List RecvDraw
  count     : Nat
  deriving DecidableEq, Repr

/-- A frame buffer: its bytes by index, in one canonical form (`Memory.wf`): indexes strictly rising, no
byte equal to what an unlisted index reads as (log 3). -/
abbrev Memory := List Host.Cell

/-- The names of the register map (10_state.md R62). -/
inductive Reg where
  | cmd | status | lstate | fcause
  | ilat | ilon | iage | ihasfix
  | olat | olon | oage | txlen | rxlen
  | cfgAddr | cfgFreq | cfgTxp | cfgTxpEn | cfgResetPin | cfgCsPin | cfgIrqPin
  | rxTmoEn | rxTmo | cfglock
  | txb (i : Nat)
  | rxb (i : Nat)
  deriving DecidableEq, Repr

/-- The state. Registers of parametric width hold their bit pattern as a number below `2^W` (log 2). -/
structure State where
  /-- The parameters of the unit; no step writes them (log 1). -/
  params    : Params
  /-- `ILAT` (10_state.md R41). -/
  ilat      : Nat
  /-- `ILON` (10_state.md R41). -/
  ilon      : Nat
  /-- `IAGE` (10_state.md R42). -/
  iage      : Nat
  /-- `IHASFIX` (10_state.md R43). -/
  ihasfix   : Bool
  /-- `OLAT` (10_state.md R44). -/
  olat      : Nat
  /-- `OLON` (10_state.md R44). -/
  olon      : Nat
  /-- `OAGE` (10_state.md R45). -/
  oage      : Byte
  /-- `TXB` (10_state.md R46). -/
  txb       : Memory
  /-- `TXLEN` (10_state.md R47). -/
  txlen     : BitVec 4
  /-- `RXB` (10_state.md R48). -/
  rxb       : Memory
  /-- `RXLEN` (10_state.md R49). -/
  rxlen     : BitVec 8
  /-- `STATUS` (10_state.md R51). -/
  status    : Status
  /-- `LSTATE` (10_state.md R52). -/
  lstate    : LState
  /-- `ISTEP` (10_state.md R53). -/
  istep     : BitVec 3
  /-- `FCAUSE` (10_state.md R54); none is code 0. -/
  fcause    : Option InitCause
  /-- The `CFG_*` registers (10_state.md R55). -/
  cfg       : LinkCfg
  /-- `LCFG` (10_state.md R56). -/
  lcfg      : LinkCfg
  /-- `CFGLOCK` (10_state.md R56). -/
  cfglock   : Bool
  /-- `RX_TMO_EN` (10_state.md R57). -/
  rxTmoEn   : Bool
  /-- `RX_TMO` (10_state.md R57). -/
  rxTmo     : Word
  /-- `RST_LINE` (10_state.md R59). -/
  rstLine   : Bool
  /-- `IND` (10_state.md R60). -/
  ind       : Bool
  /-- `TRACE`, oldest event first (10_state.md R58). -/
  trace     : List Event
  /-- A `RECV` is executing and its exchange is not answered yet (41_link_layer.md R202, log 6). -/
  rxWait    : Bool
  /-- The host accesses still to come, next first (00_scope.md R31, log 7). -/
  host      : List HostOp
  /-- The values the host has read, oldest first (00_scope.md R35, log 7). -/
  hostReads : List Nat
  /-- The radio peripheral's answers still to come (00_scope.md R33, log 5). -/
  radio     : Radio
  /-- The hardware reset line (70_reset_and_hazards.md R281, log 8). -/
  resetReq  : Bool
  deriving DecidableEq, Repr

/-- The faults. -/
inductive Fault where
  /-- Raised by `step` when `pc = (LSTATE, ISTEP)` has a value that 10_state.md R61 says it never takes: no
  rule enables a micro-step there. Safe: no state that meets the model's invariant raises it (log 15). -/
  | noMicroStep
  deriving DecidableEq, Repr

/-- The refusals. -/
inductive Refusal where
  /-- Raised by an arm of `exec` whose instruction has no meaning yet. Safe; no arm is left in that case. -/
  | notModelled (mnemonic : String)
  deriving DecidableEq, Repr

/-- A configuration record whose registers are all zero. -/
def LinkCfg.zero : LinkCfg where
  addr := 0
  freq := 0
  txpEn := false
  txp := 0
  resetPin := 0
  csPin := 0
  irqPin := 0

/-- A peripheral with no answer decided in advance. -/
def Radio.free : Radio where
  bringup := []
  setfreq := []
  sendbytes := []
  recvbytes := []
  count := 0

/-- The state after reset (10_state.md R64, 70_reset_and_hazards.md R280). The registers the spec leaves
unspecified are zero (log 4); the host has issued nothing (log 7). -/
def State.reset : State where
  params := Config.defaults
  ilat := 0
  ilon := 0
  iage := 0
  ihasfix := false
  olat := 0
  olon := 0
  oage := 0
  txb := []
  txlen := 0
  rxb := []
  rxlen := 0
  status := .ok
  lstate := .uninitialized
  istep := 0
  fcause := none
  cfg := .zero
  lcfg := .zero
  cfglock := false
  rxTmoEn := false
  rxTmo := 0
  rstLine := true
  ind := false
  trace := []
  rxWait := false
  host := []
  hostReads := []
  radio := .free
  resetReq := false

/-- What a step, or a meaning, answers. -/
abbrev Result := Host.Outcome State Fault Refusal

end Sys2Proof.Machine
end

