-- ==== Sys2Proof/Machine/Flags.lean ====
section
/-! DEFINITION. The one condition code of the block, `STATUS`, and the codes of `LSTATE` and `FCAUSE`, as the
host reads them; which code an exception writes. -/

namespace Sys2Proof.Machine

/-- The code of a `STATUS` value (10_state.md R51). -/
def statusCode : Status → Nat
  | .ok => 0
  | .badMagic => 1
  | .badLength => 2
  | .sendError => 3
  | .receiveError => 4
  | .fatalInit => 5
  | .encRange => 6
  | .wrongState => 7
  | .cfgInvalid => 8
  | .illegalCmd => 9

/-- The code of an `LSTATE` value (10_state.md R52). -/
def lstateCode : LState → Nat
  | .uninitialized => 0
  | .resetting => 1
  | .initializing => 2
  | .ready => 3
  | .faulted => 4

/-- The code of an `FCAUSE` value (10_state.md R54). -/
def fcauseCode : Option InitCause → Nat
  | none => 0
  | some .bringUp => 1
  | some .setFreq => 2

/-- The code an exception writes to `STATUS` (60_exceptions.md R241 to R249). -/
def excStatus : Exc → Status
  | .badMagic => .badMagic
  | .badLength => .badLength
  | .sendError => .sendError
  | .receiveError => .receiveError
  | .fatalInit _ => .fatalInit
  | .encRange => .encRange
  | .wrongState => .wrongState
  | .cfgInvalid => .cfgInvalid
  | .illegalCmd => .illegalCmd

/-- `x[STATUS] <- c`. -/
def State.setStatus (c : Status) (s : State) : State := { s with status := c }

end Sys2Proof.Machine
end

