-- ==== Sys2Proof/WellFormed.lean ====
section
/-! DEFINITION. Which instructions the encoding tables admit, and which parameters 00_scope.md admits. -/

namespace Sys2Proof

/-- The seven opcode bytes of 30_encoding.md R112. -/
def commandBytes : List Byte := [0x01, 0x02, 0x03, 0x04, 0x10, 0x11, 0x12]

/-- What the encoding tables ask of an instruction's operands. `ILLEGAL` stands for the reserved bytes only
(30_encoding.md R113); `SENDBYTES` carries 0 to 9 bytes (R125). Every other operand uses its whole field. -/
def Instr.wf : Instr → Bool
  | .illegal b => !(commandBytes.contains b)
  | .sendbytes buf => decide (buf.length ≤ 9)
  | .encAbs | .decAbs | .encRel | .decRel | .init | .send | .recv | .reset _ | .bringup _ _
  | .setfreq _ | .setaddr _ | .setpromisc _ | .settxpower _ _ | .recvbytes _ _ | .frameAbs _ _ _
  | .frameRel _ _ _ => true

/-- The constraints on the parameters: `COORD_DEN` is a positive multiple of 1,000,000 and no decode result
overflows `COORD_W` bits (00_scope.md R16); `RX_CAP` is at least 9 (R19); `AGE_W` is a width (R17). -/
abbrev Params.Valid (p : Params) : Prop :=
  0 < p.coordDen ∧ p.coordDen % 1000000 = 0 ∧
  2 ^ 31 * (p.coordDen / 1000000) + p.refLatQ.natAbs + p.refLonQ.natAbs < 2 ^ (p.coordW - 1) ∧
  1 ≤ p.coordW ∧ 1 ≤ p.ageW ∧ 9 ≤ p.rxCap

end Sys2Proof
end

