-- ==== Sys2Proof/Decode.lean ====
section
/-! DEFINITION. The decoder, total and rejecting by name, and after it the encoder, both from the tables of
30_encoding.md. An encoded row is a command byte (F-CMD, R110), a port operation number with its typed
arguments (F-PORT, R124: the spec gives the arguments no bit pattern) or a byte sequence (F-ABS and F-REL,
R114, R115). -/

namespace Sys2Proof

/-- `bytes_N(p)` under `LE` (00_scope.md R28): the least significant byte first. -/
def bytesLe : Nat → Nat → List Byte
  | 0, _ => []
  | n + 1, p => BitVec.ofNat 8 p :: bytesLe n (p / 256)

/-- `word_N(b)` under `LE` (00_scope.md R28). -/
def wordLe : List Byte → Nat
  | [] => 0
  | b :: bs => b.toNat + 256 * wordLe bs

/-- `bytes_N(p)` in `BYTE_ORDER` (00_scope.md R28). -/
def bytesN (bo : ByteOrder) (n p : Nat) : List Byte :=
  match bo with
  | .le => bytesLe n p
  | .be => (bytesLe n p).reverse

/-- `word_N(b)` in `BYTE_ORDER` (00_scope.md R28). -/
def wordN (bo : ByteOrder) (bs : List Byte) : Nat :=
  match bo with
  | .le => wordLe bs
  | .be => wordLe bs.reverse

/-- The nine bytes of an absolute frame with the given field patterns (30_encoding.md R114, R121). -/
def absBytes (bo : ByteOrder) (lat lon : Nat) (age : Byte) : List Byte :=
  bytesN bo 4 lat ++ bytesN bo 4 lon ++ [age]

/-- The seven bytes of a relative frame with the given field patterns (30_encoding.md R115, R121). -/
def relBytes (bo : ByteOrder) (dlat dlon : Nat) (age : Byte) : List Byte :=
  [Config.magic0, Config.magic1] ++ bytesN bo 2 dlat ++ bytesN bo 2 dlon ++ [age]

/-- One typed argument of a port operation (30_encoding.md R124). -/
inductive PortArg where
  | byte (b : Byte)
  | word (w : Word)
  | bit (b : Bool)
  | buf (l : List Byte)
  deriving DecidableEq, Repr

/-- An encoded row. -/
inductive Code where
  /-- F-CMD: the byte written to `CMD`. -/
  | cmd (b : Byte)
  /-- F-PORT: the operation number and the arguments. -/
  | port (op : BitVec 4) (args : List PortArg)
  /-- F-ABS or F-REL: the bytes of a frame, byte 0 first. -/
  | frame (bytes : List Byte)
  deriving DecidableEq, Repr

/-- Why a code is no instruction. -/
inductive Reject where
  /-- Port numbers 0x8 to 0xF are reserved (30_encoding.md R125). -/
  | reservedPortOp (op : BitVec 4)
  /-- The arguments are not those the operation's row lists (30_encoding.md R125). -/
  | portArguments (op : BitVec 4)
  /-- A byte sequence of neither frame length (30_encoding.md R117, R119). -/
  | frameLength (n : Nat)
  /-- A seven-byte sequence without the magic (30_encoding.md R119). -/
  | frameMagic
  deriving DecidableEq, Repr

/-- The command a byte written to `CMD` selects: all eight bits are compared, and every byte outside the
table is `ILLEGAL` (30_encoding.md R110, R112, R113). -/
def decodeCmd (b : Byte) : Instr :=
  if b = 0x01 then .encAbs
  else if b = 0x02 then .decAbs
  else if b = 0x03 then .encRel
  else if b = 0x04 then .decRel
  else if b = 0x10 then .init
  else if b = 0x11 then .send
  else if b = 0x12 then .recv
  else .illegal b

/-- The port operation with number `op` and arguments `args` (30_encoding.md R125). -/
def decodePort (op : BitVec 4) (args : List PortArg) : Except Reject Instr :=
  if op = 0x0 then
    match args with
    | [.byte pin] => .ok (.reset pin)
    | _ => .error (.portArguments op)
  else if op = 0x1 then
    match args with
    | [.byte cs, .byte irq] => .ok (.bringup cs irq)
    | _ => .error (.portArguments op)
  else if op = 0x2 then
    match args with
    | [.word mhz] => .ok (.setfreq mhz)
    | _ => .error (.portArguments op)
  else if op = 0x3 then
    match args with
    | [.byte id] => .ok (.setaddr id)
    | _ => .error (.portArguments op)
  else if op = 0x4 then
    match args with
    | [.bit on] => .ok (.setpromisc on)
    | _ => .error (.portArguments op)
  else if op = 0x5 then
    match args with
    | [.byte dbm, .bit boost] => .ok (.settxpower dbm boost)
    | _ => .error (.portArguments op)
  else if op = 0x6 then
    match args with
    | [.buf l] => if l.length ≤ 9 then .ok (.sendbytes l) else .error (.portArguments op)
    | _ => .error (.portArguments op)
  else if op = 0x7 then
    match args with
    | [.bit tmoEn, .word tmo] => .ok (.recvbytes tmoEn tmo)
    | _ => .error (.portArguments op)
  else .error (.reservedPortOp op)

/-- The frame a byte sequence is: nine bytes are an absolute frame whatever they hold, seven bytes with the
magic are a relative frame, and nothing else is a frame (30_encoding.md R114, R115, R119). -/
def decodeFrame (bo : ByteOrder) (bytes : List Byte) : Except Reject Instr :=
  match bytes with
  | [b0, b1, b2, b3, b4, b5, b6, b7, b8] =>
    .ok (.frameAbs (BitVec.ofNat 32 (wordN bo [b0, b1, b2, b3]))
      (BitVec.ofNat 32 (wordN bo [b4, b5, b6, b7])) b8)
  | [m0, m1, b2, b3, b4, b5, b6] =>
    if m0 = Config.magic0 ∧ m1 = Config.magic1 then
      .ok (.frameRel (BitVec.ofNat 16 (wordN bo [b2, b3])) (BitVec.ofNat 16 (wordN bo [b4, b5])) b6)
    else .error .frameMagic
  | l => .error (.frameLength l.length)

/-- The decoder. `bo` is the unit's `BYTE_ORDER`, which only the frame formats use (20_memory.md R82). -/
def decode (bo : ByteOrder) : Code → Except Reject Instr
  | .cmd b => .ok (decodeCmd b)
  | .port op args => decodePort op args
  | .frame bytes => decodeFrame bo bytes

/-- The encoder, from the same tables (30_encoding.md R112, R114, R115, R125). -/
def encode (bo : ByteOrder) : Instr → Code
  | .encAbs => .cmd 0x01
  | .decAbs => .cmd 0x02
  | .encRel => .cmd 0x03
  | .decRel => .cmd 0x04
  | .init => .cmd 0x10
  | .send => .cmd 0x11
  | .recv => .cmd 0x12
  | .illegal b => .cmd b
  | .reset pin => .port 0x0 [.byte pin]
  | .bringup cs irq => .port 0x1 [.byte cs, .byte irq]
  | .setfreq mhz => .port 0x2 [.word mhz]
  | .setaddr id => .port 0x3 [.byte id]
  | .setpromisc on => .port 0x4 [.bit on]
  | .settxpower dbm boost => .port 0x5 [.byte dbm, .bit boost]
  | .sendbytes buf => .port 0x6 [.buf buf]
  | .recvbytes tmoEn tmo => .port 0x7 [.bit tmoEn, .word tmo]
  | .frameAbs lat lon age => .frame (absBytes bo lat.toNat lon.toNat age)
  | .frameRel dlat dlon age => .frame (relBytes bo dlat.toNat dlon.toNat age)

/-- A port operation's arguments with every operand zero: the operand words a table word leaves out
(log 12). -/
def zeroArgs (op : BitVec 4) : List PortArg :=
  if op = 0x0 then [.byte 0]
  else if op = 0x1 then [.byte 0, .byte 0]
  else if op = 0x2 then [.word 0]
  else if op = 0x3 then [.byte 0]
  else if op = 0x4 then [.bit false]
  else if op = 0x5 then [.byte 0, .bit false]
  else if op = 0x6 then [.buf []]
  else if op = 0x7 then [.bit false, .word 0]
  else []

/-- The code a table word stands for: fewer than 8 bits are a port operation number with zero arguments,
8 bits are a command byte, more are the bytes of a frame, the first byte least significant (log 12). -/
def tableCode (nbits w : Nat) : Code :=
  if nbits < 8 then .port (BitVec.ofNat 4 w) (zeroArgs (BitVec.ofNat 4 w))
  else if nbits < 16 then .cmd (BitVec.ofNat 8 w)
  else .frame (bytesLe (nbits / 8) w)

/-- The instruction the decoder reads from a word of spec/opcode_table.json; frames are read in the default
`BYTE_ORDER` (log 12). -/
def decodeTableWord (nbits w : Nat) : Option Instr :=
  match decode Config.defaults.byteOrder (tableCode nbits w) with
  | .ok i => some i
  | .error _ => none

end Sys2Proof
end

