-- ==== Sys2Proof/Machine/Operands.lean ====
section
/-! DEFINITION. Operands: signedness, rounding, scaling, the age function, the range tests, and the fields of
a frame (00_scope.md R24 to R28, 30_encoding.md R120 to R123, 40_payload_codec.md R151 to R153). -/

namespace Sys2Proof.Machine

/-- `sext_N(p)` (00_scope.md R26). -/
def sext (n p : Nat) : Int :=
  if p < 2 ^ (n - 1) then (p : Int) else (p : Int) - ((2 ^ n : Nat) : Int)

/-- `tc_N(v) = v mod 2^N` (00_scope.md R26). -/
def tc (n : Nat) (v : Int) : Nat := (v % ((2 ^ n : Nat) : Int)).toNat

/-- `round_Z(n / d)` for `d > 0` (00_scope.md R27), by integer division: `floor(|q| + 1/2)` is the quotient
of `2|n| + d` by `2d`, and the nearest integer is found from the floor and the remainder (log 16). -/
def roundDiv (m : RoundMode) (n : Int) (d : Nat) : Int :=
  match m with
  | .halfAwayFromZero => n.sign * (((2 * n.natAbs + d) / (2 * d) : Nat) : Int)
  | .halfToEven =>
    if 2 * (n % (d : Int)) < d then n / (d : Int)
    else if (d : Int) < 2 * (n % (d : Int)) then n / (d : Int) + 1
    else if n / (d : Int) % 2 = 0 then n / (d : Int)
    else n / (d : Int) + 1

/-- `Q_ABS`: register units in one absolute frame unit (00_scope.md R24). -/
def qAbs (p : Params) : Nat := p.coordDen / Config.absScale

/-- `Q_REL`: register units in one relative frame unit (00_scope.md R24). -/
def qRel (p : Params) : Nat := p.coordDen / Config.relScale

/-- `to_abs(c)` (40_payload_codec.md R151). -/
def toAbs (p : Params) (c : Int) : Int := roundDiv p.round c (qAbs p)

/-- `to_rel(c, r)` (40_payload_codec.md R151). -/
def toRel (p : Params) (c r : Int) : Int := roundDiv p.round (c - r) (qRel p)

/-- `age8(has, a)` (40_payload_codec.md R152). -/
def age8 (has : Bool) (a : Int) : Byte :=
  if has = false then Config.ageSentinel
  else if 255 ≤ a then Config.ageSentinel
  else if a < 0 then 0
  else BitVec.ofNat 8 a.toNat

/-- `fits_abs(n)` (40_payload_codec.md R153). -/
def fitsAbs (n : Int) : Bool := decide (Config.absMin ≤ n) && decide (n ≤ Config.absMax)

/-- `fits_rel(n)` (40_payload_codec.md R153). -/
def fitsRel (n : Int) : Bool := decide (-Config.relMax ≤ n) && decide (n ≤ Config.relMax)

/-- Whether the encoder makes the range test and it fails (40_payload_codec.md R153). -/
def outOfRange (p : Params) (fits : Bool) : Bool := decide (p.rangePolicy = .fault) && !fits

/-- A signed field of a frame, from its bytes (30_encoding.md R120). -/
def field (p : Params) (bytes : List Byte) : Int :=
  sext (8 * bytes.length) (wordN p.byteOrder bytes)

/-- Whether a transmit power is in [5,23] (00_scope.md R22, 41_link_layer.md R185). -/
def txpLegal (txp : Byte) : Bool :=
  decide (Config.txpMin ≤ sext 8 txp.toNat) && decide (sext 8 txp.toNat ≤ Config.txpMax)

/-- The latitude the encoders read, in register units (10_state.md R41). -/
def State.inLat (s : State) : Int := sext s.params.coordW s.ilat

/-- The longitude the encoders read, in register units (10_state.md R41). -/
def State.inLon (s : State) : Int := sext s.params.coordW s.ilon

/-- The age byte the encoders write (40_payload_codec.md R152, R155, R160). -/
def State.inAge (s : State) : Byte := age8 s.ihasfix (sext s.params.ageW s.iage)

/-- The latitude the last decode gave, in register units (10_state.md R44). -/
def State.outLat (s : State) : Int := sext s.params.coordW s.olat

/-- The longitude the last decode gave, in register units (10_state.md R44). -/
def State.outLon (s : State) : Int := sext s.params.coordW s.olon

end Sys2Proof.Machine
end

