-- ==== Sys2Proof/Machine/Ops.lean ====
section
/-! DEFINITION. The named operations: the frame buffers, the trace, the sequencer's pc, taking an exception,
the radio port, the output lines and reset. -/

namespace Sys2Proof.Machine

/-- What a buffer byte that nothing has written reads as (log 3). -/
def Memory.unlisted : Byte := 0

/-- One byte of a frame buffer (00_scope.md R29). -/
def Memory.read : Memory → Nat → Byte
  | [], _ => Memory.unlisted
  | (k, b) :: m, i => if k = i then b else Memory.read m i

/-- Writing one byte of a frame buffer; the canonical form is kept (log 3). -/
def Memory.write : Memory → Nat → Byte → Memory
  | [], i, b => if b = Memory.unlisted then [] else [(i, b)]
  | (k, c) :: m, i, b =>
    if i < k then (if b = Memory.unlisted then (k, c) :: m else (i, b) :: (k, c) :: m)
    else if i = k then (if b = Memory.unlisted then m else (i, b) :: m)
    else (k, c) :: Memory.write m i b

/-- `MemRead(B, i, n)` (00_scope.md R29): lowest index first. -/
def Memory.readBytes (m : Memory) : Nat → Nat → List Byte
  | _, 0 => []
  | i, n + 1 => m.read i :: Memory.readBytes m (i + 1) n

/-- `MemWrite(B, i, n, bytes)` (00_scope.md R29). -/
def Memory.writeBytes (m : Memory) : Nat → List Byte → Memory
  | _, [] => m
  | i, b :: bs => Memory.writeBytes (m.write i b) (i + 1) bs

/-- Whether every cell of a buffer lies at or above `lo`, rising, with no unlisted value. -/
def Memory.wfFrom : Nat → Memory → Bool
  | _, [] => true
  | lo, (k, b) :: m => decide (lo ≤ k) && decide (b ≠ Memory.unlisted) && Memory.wfFrom (k + 1) m

/-- The canonical form: indexes strictly rising, no entry equal to what an unlisted index reads as. -/
def Memory.wf (m : Memory) : Bool := Memory.wfFrom 0 m

/-- Every listed index lies below the buffer's size. -/
def Memory.below (n : Nat) (m : Memory) : Bool := m.all (fun c => decide (c.1 < n))

/-- Appending events to `TRACE` (10_state.md R58). -/
def State.emit (es : List Event) (s : State) : State := { s with trace := s.trace ++ es }

/-- `pc <- (l, k)` (00_scope.md R29, 10_state.md R61). -/
def State.setPc (l : LState) (k : BitVec 3) (s : State) : State := { s with lstate := l, istep := k }

/-- Whether the block is idle, so that the host has a step: no command runs and the link state is
`Uninitialized` or `Ready` (10_state.md R63). -/
def State.idle (s : State) : Bool :=
  (decide (s.lstate = .uninitialized) || decide (s.lstate = .ready)) && !s.rxWait

/-- TAKING AN EXCEPTION (00_scope.md R30, 60_exceptions.md R240 to R249, R257, R258). `STATUS` takes the
exception's code; `EncRange` also clears `TXLEN` (R246), `ReceiveError` also clears `RXLEN` (R244), and the
fatal exception records its cause and enters `(Faulted, 0)` (R245). Nothing else changes, nothing is saved,
and there is no handler address and no return (R257, R260): a returned exception ends its command and the
host goes on, the fatal one leaves only the blink step. -/
def State.raise (e : Exc) (s : State) : State :=
  match e with
  | .encRange => { s.setStatus (excStatus e) with txlen := 0 }
  | .receiveError => { s.setStatus (excStatus e) with rxlen := 0 }
  | .fatalInit c => { (s.setStatus (excStatus e)).setPc .faulted 0 with fcause := some c }
  | .badMagic | .badLength | .sendError | .wrongState | .cfgInvalid | .illegalCmd =>
    s.setStatus (excStatus e)

/-- A successful encode: the frame goes to `TXB[0..]` and its length to `TXLEN`; later bytes of `TXB` keep
their values (40_payload_codec.md R155, R160). -/
def State.putTx (bytes : List Byte) (s : State) : State :=
  { s with txb := s.txb.writeBytes 0 bytes, txlen := BitVec.ofNat 4 bytes.length, status := .ok }

/-- A byte sequence goes to `RXB`, cut at `RX_CAP`; later bytes of `RXB` keep their values, and `RXLEN`
takes `len` (41_link_layer.md R202). -/
def State.putRx (bytes : List Byte) (len : Nat) (s : State) : State :=
  { s with rxb := s.rxb.writeBytes 0 (bytes.take s.params.rxCap), rxlen := BitVec.ofNat 8 len }

/-- A successful decode: the fix goes to `OLAT`, `OLON`, `OAGE` (40_payload_codec.md R157, R163). -/
def State.putFix (lat lon : Int) (age : Byte) (s : State) : State :=
  { s with olat := tc s.params.coordW lat, olon := tc s.params.coordW lon, oage := age, status := .ok }

/-- The peripheral's answer to the next `BRINGUP` (00_scope.md R33, log 5). -/
def Radio.bringupAnswer (r : Radio) : Bool :=
  match r.bringup with
  | b :: _ => b
  | [] => Config.freeBringup r.count

/-- The peripheral after it has answered a `BRINGUP`. -/
def Radio.afterBringup (r : Radio) : Radio :=
  match r.bringup with
  | _ :: q => { r with bringup := q }
  | [] => { r with count := r.count + 1 }

/-- The peripheral's answer to the next `SETFREQ`. -/
def Radio.setfreqAnswer (r : Radio) : Bool :=
  match r.setfreq with
  | b :: _ => b
  | [] => Config.freeSetfreq r.count

/-- The peripheral after it has answered a `SETFREQ`. -/
def Radio.afterSetfreq (r : Radio) : Radio :=
  match r.setfreq with
  | _ :: q => { r with setfreq := q }
  | [] => { r with count := r.count + 1 }

/-- The peripheral's answer to the next `SENDBYTES`. -/
def Radio.sendbytesAnswer (r : Radio) : Bool :=
  match r.sendbytes with
  | b :: _ => b
  | [] => Config.freeSendbytes r.count

/-- The peripheral after it has answered a `SENDBYTES`. -/
def Radio.afterSendbytes (r : Radio) : Radio :=
  match r.sendbytes with
  | _ :: q => { r with sendbytes := q }
  | [] => { r with count := r.count + 1 }

/-- What the peripheral does next with a `RECVBYTES` exchange. -/
def Radio.recvbytesDraw (r : Radio) : RecvDraw :=
  match r.recvbytes with
  | d :: _ => d
  | [] => Config.freeRecvbytes r.count

/-- The peripheral after that. -/
def Radio.afterRecvbytes (r : Radio) : Radio :=
  match r.recvbytes with
  | _ :: q => { r with recvbytes := q }
  | [] => { r with count := r.count + 1 }

/-- A `RECVBYTES` draw as the exchange with the given timeout sees it: with a timeout the peripheral must
answer, so a withheld answer is the timeout with no data; without one it may be withheld for ever
(41_link_layer.md R202, 42_radio_port.md R220, R228; log 6). -/
def recvOutcome (tmoEn : Bool) (d : RecvDraw) : RecvDraw :=
  match d with
  | .withheld => if tmoEn then .nothing else .withheld
  | .nothing => .nothing
  | .bytes l => .bytes l

/-- A completed port exchange: one `PortCall` event, and the peripheral moves on (00_scope.md R30,
42_radio_port.md R220). -/
def State.exchange (op : Instr) (answer : Answer) (after : Radio) (s : State) : State :=
  { s.emit [.portCall op answer] with radio := after }

/-- The `SENDBYTES` exchange and what the block does with its answer (42_radio_port.md R227,
41_link_layer.md R200). -/
def State.sendBytes (buf : List Byte) (s : State) : State :=
  let ok := s.radio.sendbytesAnswer
  let s1 := s.exchange (.sendbytes buf) (.bool ok) s.radio.afterSendbytes
  if ok then s1.setStatus .ok else s1.raise .sendError

/-- The `RECVBYTES` exchange and what the block does with its answer (42_radio_port.md R228,
41_link_layer.md R202, R203). While the answer is withheld the command stays in execution and no event is
recorded (log 6). -/
def State.recvBytes (tmoEn : Bool) (tmo : Word) (s : State) : State :=
  match recvOutcome tmoEn s.radio.recvbytesDraw with
  | .withheld => { s with radio := s.radio.afterRecvbytes, rxWait := true }
  | .nothing =>
    { (s.exchange (.recvbytes tmoEn tmo) .nothing s.radio.afterRecvbytes).raise .receiveError with
      rxWait := false }
  | .bytes l =>
    { ((s.exchange (.recvbytes tmoEn tmo) (.bytes l) s.radio.afterRecvbytes).putRx l
        (min l.length 255)).setStatus .ok with rxWait := false }

/-- The end of `INIT`: `STATUS = OK` and `pc = (Ready, 0)` (41_link_layer.md R192). -/
def State.initDone (s : State) : State := (s.setStatus .ok).setPc .ready 0

/-- One half of the reset pulse: the line and its two events (41_link_layer.md R186, R187). -/
def State.driveReset (pin : Byte) (level : Bool) (which : DelayKind) (s : State) : State :=
  { s.emit [.rstLine pin level, .delay which] with rstLine := level }

/-- The blink step of `Faulted` (41_link_layer.md R205). -/
def State.blink (s : State) : State :=
  { s.emit [.indToggle (!s.ind), .delay .blink] with ind := !s.ind }

/-- Hardware reset (70_reset_and_hazards.md R280, R281): every register takes its reset value and `TRACE` is
empty; the parameters and the agents outside the block stay (R282, log 8). -/
def State.hardReset (s : State) : State :=
  { State.reset with
    params := s.params
    host := s.host
    hostReads := s.hostReads
    radio := s.radio }

end Sys2Proof.Machine
end

