-- ==== Sys2Proof/Machine/HostAccess.lean ====
section
/-! DEFINITION. The host's register accesses (20_memory.md R100 to R102, 10_state.md R62) and the
pseudo-instructions of the host script notation (30_encoding.md R130, R131). -/

namespace Sys2Proof.Machine

/-- The register with a number, if the number is not reserved (10_state.md R62). -/
def regOf (rxCap : Nat) (n : BitVec 8) : Option Reg :=
  match n.toNat with
  | 0x00 => some .cmd
  | 0x01 => some .status
  | 0x02 => some .lstate
  | 0x03 => some .fcause
  | 0x04 => some .ilat
  | 0x05 => some .ilon
  | 0x06 => some .iage
  | 0x07 => some .ihasfix
  | 0x08 => some .olat
  | 0x09 => some .olon
  | 0x0A => some .oage
  | 0x0B => some .txlen
  | 0x0C => some .rxlen
  | 0x0D => some .cfgAddr
  | 0x0E => some .cfgFreq
  | 0x0F => some .cfgTxp
  | 0x10 => some .cfgTxpEn
  | 0x11 => some .cfgResetPin
  | 0x12 => some .cfgCsPin
  | 0x13 => some .cfgIrqPin
  | 0x14 => some .rxTmoEn
  | 0x15 => some .rxTmo
  | 0x16 => some .cfglock
  | k =>
    if 0x20 ≤ k ∧ k ≤ 0x28 then some (.txb (k - 0x20))
    else if 0x40 ≤ k ∧ k < 0x40 + rxCap then some (.rxb (k - 0x40))
    else none

/-- The width of a register in bits (10_state.md R62). -/
def regWidth (p : Params) : Reg → Nat
  | .cmd => 8
  | .status => 4
  | .lstate => 3
  | .fcause => 2
  | .ilat | .ilon | .olat | .olon => p.coordW
  | .iage => p.ageW
  | .ihasfix | .cfgTxpEn | .rxTmoEn | .cfglock => 1
  | .oage | .rxlen | .cfgAddr | .cfgTxp | .cfgResetPin | .cfgCsPin | .cfgIrqPin | .txb _ | .rxb _ => 8
  | .txlen => 4
  | .cfgFreq | .rxTmo => 32

/-- Whether a register is one of the seven `CFG_*` registers, locked by `CFGLOCK` (10_state.md R56). -/
def regIsCfg : Reg → Bool
  | .cfgAddr | .cfgFreq | .cfgTxp | .cfgTxpEn | .cfgResetPin | .cfgCsPin | .cfgIrqPin => true
  | .cmd | .status | .lstate | .fcause | .ilat | .ilon | .iage | .ihasfix | .olat | .olon | .oage
  | .txlen | .rxlen | .rxTmoEn | .rxTmo | .cfglock | .txb _ | .rxb _ => false

/-- Whether a host write changes the register (10_state.md R62). `CMD` stores nothing (R50). -/
def regWritable : Reg → Bool
  | .ilat | .ilon | .iage | .ihasfix | .rxlen | .cfgAddr | .cfgFreq | .cfgTxp | .cfgTxpEn
  | .cfgResetPin | .cfgCsPin | .cfgIrqPin | .rxTmoEn | .rxTmo | .rxb _ => true
  | .cmd | .status | .lstate | .fcause | .olat | .olon | .oage | .txlen | .cfglock | .txb _ => false

/-- The value of a register, zero-extended; `CMD` reads 0 (20_memory.md R101, 10_state.md R50). -/
def State.getReg (s : State) : Reg → Nat
  | .cmd => 0
  | .status => statusCode s.status
  | .lstate => lstateCode s.lstate
  | .fcause => fcauseCode s.fcause
  | .ilat => s.ilat
  | .ilon => s.ilon
  | .iage => s.iage
  | .ihasfix => s.ihasfix.toNat
  | .olat => s.olat
  | .olon => s.olon
  | .oage => s.oage.toNat
  | .txlen => s.txlen.toNat
  | .rxlen => s.rxlen.toNat
  | .cfgAddr => s.cfg.addr.toNat
  | .cfgFreq => s.cfg.freq.toNat
  | .cfgTxp => s.cfg.txp.toNat
  | .cfgTxpEn => s.cfg.txpEn.toNat
  | .cfgResetPin => s.cfg.resetPin.toNat
  | .cfgCsPin => s.cfg.csPin.toNat
  | .cfgIrqPin => s.cfg.irqPin.toNat
  | .rxTmoEn => s.rxTmoEn.toNat
  | .rxTmo => s.rxTmo.toNat
  | .cfglock => s.cfglock.toNat
  | .txb i => (s.txb.read i).toNat
  | .rxb i => (s.rxb.read i).toNat

/-- Storing a pattern `p` of the register's width in a host-writable register; the others have no host
store (20_memory.md R100). -/
def State.putReg (s : State) (r : Reg) (p : Nat) : State :=
  match r with
  | .ilat => { s with ilat := p }
  | .ilon => { s with ilon := p }
  | .iage => { s with iage := p }
  | .ihasfix => { s with ihasfix := decide (p = 1) }
  | .rxlen => { s with rxlen := BitVec.ofNat 8 p }
  | .cfgAddr => { s with cfg := { s.cfg with addr := BitVec.ofNat 8 p } }
  | .cfgFreq => { s with cfg := { s.cfg with freq := BitVec.ofNat 32 p } }
  | .cfgTxp => { s with cfg := { s.cfg with txp := BitVec.ofNat 8 p } }
  | .cfgTxpEn => { s with cfg := { s.cfg with txpEn := decide (p = 1) } }
  | .cfgResetPin => { s with cfg := { s.cfg with resetPin := BitVec.ofNat 8 p } }
  | .cfgCsPin => { s with cfg := { s.cfg with csPin := BitVec.ofNat 8 p } }
  | .cfgIrqPin => { s with cfg := { s.cfg with irqPin := BitVec.ofNat 8 p } }
  | .rxTmoEn => { s with rxTmoEn := decide (p = 1) }
  | .rxTmo => { s with rxTmo := BitVec.ofNat 32 p }
  | .rxb i => { s with rxb := s.rxb.write i (BitVec.ofNat 8 p) }
  | .cmd | .status | .lstate | .fcause | .olat | .olon | .oage | .txlen | .cfglock | .txb _ => s

/-- `HostRead(n)` (20_memory.md R101): a reserved number reads 0. -/
def State.hostRead (s : State) (n : BitVec 8) : Nat :=
  match regOf s.params.rxCap n with
  | some r => s.getReg r
  | none => 0

/-- `HostWrite(n, v)` to a register other than `CMD` (20_memory.md R100): the low bits are kept; a read-only
register, a reserved number and a locked `CFG_*` register ignore the write. -/
def State.hostWrite (s : State) (n : BitVec 8) (v : Int) : State :=
  match regOf s.params.rxCap n with
  | some r =>
    if regWritable r && !(regIsCfg r && s.cfglock) then s.putReg r (tc (regWidth s.params r) v) else s
  | none => s

/-- The effect of `LOADRX` (30_encoding.md R131): the bytes stand in `RXB` and their number in `RXLEN`.
DESIGN CHOICE (log 22), where the spec is open: with `RX_CAP` above 192, R131 lets `LOADRX` name `RXB[192]` on,
which have no register number (00_scope.md R19, 10_state.md R62, 20_memory.md R80), and this one access of 193 to
`RX_CAP` bytes writes them; of more than `RX_CAP` bytes, for which R131 gives no expansion, those beyond `RX_CAP`
are lost. `RXLEN` keeps the low 8 bits of the number, as a write of it does (R62). -/
def State.loadRx (bytes : List Byte) (s : State) : State := s.putRx bytes bytes.length

/-- `SETFIX lat, lon, age, has` (30_encoding.md R131). -/
def setFixScript (lat lon age has : Int) : List HostOp :=
  [.write 0x04 lat, .write 0x05 lon, .write 0x06 age, .write 0x07 has]

/-- The writes of a byte sequence to the registers from number `n` on. DESIGN CHOICE (log 22): a byte whose
number would lie above 0xFF, the last there is (20_memory.md R80), has no register write, and the script leaves
it out; so `RXB[192]` on are not written by the expansion of `LOADRX` (30_encoding.md R131 gives no number). -/
def writeScript : Nat → List Byte → List HostOp
  | _, [] => []
  | n, b :: bs =>
    if n ≤ 0xFF then .write (BitVec.ofNat 8 n) b.toNat :: writeScript (n + 1) bs else []

/-- The expansion of `LOADRX b0 b1 ...` (30_encoding.md R131); bytes from the 193rd on have no number and no
write (log 22). -/
def loadRxScript (bytes : List Byte) : List HostOp :=
  writeScript 0x40 bytes ++ [.write 0x0C bytes.length]

/-- `CONFIG addr, freq, txp_en, txp, rst, cs, irq` (30_encoding.md R131). -/
def configScript (addr freq txpEn txp rst cs irq : Int) : List HostOp :=
  [.write 0x0D addr, .write 0x0E freq, .write 0x10 txpEn, .write 0x0F txp, .write 0x11 rst,
    .write 0x12 cs, .write 0x13 irq]

/-- The accesses by which `COPYTXRX` copies the `k` bytes of `TXB` from index `i` on. -/
def copyScript (s : State) : Nat → Nat → List HostOp
  | _, 0 => []
  | i, k + 1 =>
    .read (BitVec.ofNat 8 (0x20 + i)) :: .write (BitVec.ofNat 8 (0x40 + i)) (s.txb.read i).toNat ::
      copyScript s (i + 1) k

/-- `COPYTXRX` as issued in state `s` (30_encoding.md R131): the values the host writes are those it reads
from `TXB`, and the one it has read from `TXLEN`. -/
def copyTxRxScript (s : State) : List HostOp :=
  copyScript s 0 s.txlen.toNat ++ [.write 0x0C s.txlen.toNat]

/-- `CMD m` (30_encoding.md R130): the write that issues a command. -/
def cmdScript (opcode : Byte) : List HostOp := [.write 0x00 opcode.toNat]

end Sys2Proof.Machine
end

