-- ==== Sys2Proof/Machine/Codec.lean ====
section
/-! DEFINITION. The payload codec (40_payload_codec.md): the meanings of `ENC_ABS`, `DEC_ABS`, `ENC_REL`,
`DEC_REL`, and of the two frame rows. -/

namespace Sys2Proof.Machine

/-- `ENC_ABS` (40_payload_codec.md R155). -/
def execEncAbs (s : State) : Result :=
  let la := toAbs s.params s.inLat
  let lo := toAbs s.params s.inLon
  if outOfRange s.params (fitsAbs la && fitsAbs lo) then .next (s.raise .encRange)
  else .next (s.putTx (absBytes s.params.byteOrder (tc 32 la) (tc 32 lo) s.inAge))

/-- `DEC_ABS` (40_payload_codec.md R157). -/
def execDecAbs (s : State) : Result :=
  if s.rxlen.toNat ≠ Config.absLen then .next (s.raise .badLength)
  else
    .next (s.putFix (field s.params (s.rxb.readBytes 0 4) * qAbs s.params)
      (field s.params (s.rxb.readBytes 4 4) * qAbs s.params) (s.rxb.read 8))

/-- `ENC_REL` (40_payload_codec.md R160). -/
def execEncRel (s : State) : Result :=
  let dla := toRel s.params s.inLat s.params.refLatQ
  let dlo := toRel s.params s.inLon s.params.refLonQ
  if outOfRange s.params (fitsRel dla && fitsRel dlo) then .next (s.raise .encRange)
  else .next (s.putTx (relBytes s.params.byteOrder (tc 16 dla) (tc 16 dlo) s.inAge))

/-- `DEC_REL` (40_payload_codec.md R163): the length is tested before the magic (60_exceptions.md R255). -/
def execDecRel (s : State) : Result :=
  if s.rxlen.toNat ≠ Config.relLen then .next (s.raise .badLength)
  else if s.rxb.read 0 ≠ Config.magic0 ∨ s.rxb.read 1 ≠ Config.magic1 then .next (s.raise .badMagic)
  else
    .next (s.putFix (s.params.refLatQ + field s.params (s.rxb.readBytes 2 2) * qRel s.params)
      (s.params.refLonQ + field s.params (s.rxb.readBytes 4 2) * qRel s.params) (s.rxb.read 6))

/-- `FRAME_ABS`: an absolute frame is presented to the block, as `LOADRX` does with its nine bytes
(30_encoding.md R114, R131; log 13). -/
def execFrameAbs (lat lon : Word) (age : Byte) (s : State) : Result :=
  .next (s.loadRx (absBytes s.params.byteOrder lat.toNat lon.toNat age))

/-- `FRAME_REL`: a relative frame is presented to the block, as `LOADRX` does with its seven bytes
(30_encoding.md R115, R131; log 13). -/
def execFrameRel (dlat dlon : Half) (age : Byte) (s : State) : Result :=
  .next (s.loadRx (relBytes s.params.byteOrder dlat.toNat dlon.toNat age))

end Sys2Proof.Machine
end

