-- ==== Sys2Proof/Machine/Link.lean ====
section
/-! DEFINITION. The link commands (41_link_layer.md): the meanings of `INIT`, `SEND`, `RECV`, and of a
reserved command byte. -/

namespace Sys2Proof.Machine

/-- Whether the configuration carries a transmit power outside [5,23] (41_link_layer.md R185). -/
def cfgIllegal (c : LinkCfg) : Bool := c.txpEn && !(txpLegal c.txp)

/-- `INIT` (41_link_layer.md R185): acceptance. The state is tested before the configuration
(60_exceptions.md R255). The micro-steps of R186 to R192 follow, one a step. -/
def execInit (s : State) : Result :=
  if s.lstate ≠ .uninitialized then .next (s.raise .wrongState)
  else if cfgIllegal s.cfg then .next (s.raise .cfgInvalid)
  else .next ({ s with lcfg := s.cfg, cfglock := true }.setPc .resetting 0)

/-- `SEND` (41_link_layer.md R200). -/
def execSend (s : State) : Result :=
  if s.lstate ≠ .ready then .next (s.raise .wrongState)
  else .next (s.sendBytes (s.txb.readBytes 0 s.txlen.toNat))

/-- `RECV` (41_link_layer.md R202, R203). -/
def execRecv (s : State) : Result :=
  if s.lstate ≠ .ready then .next (s.raise .wrongState)
  else .next (s.recvBytes s.rxTmoEn s.rxTmo)

/-- `ILLEGAL` (30_encoding.md R113, 60_exceptions.md R249): the byte is not recorded. -/
def execIllegal (_opcode : Byte) (s : State) : Result := .next (s.raise .illegalCmd)

end Sys2Proof.Machine
end

