-- ==== Sys2Proof/Machine/Port.lean ====
section
/-! DEFINITION. The radio-port operations (42_radio_port.md), each with the micro-step of 41_link_layer.md
that issues it: the exchange, and what the block does with the answer. The sequencer issues each at its own
pc (Machine/Fetch.lean); the meanings below do not test the pc (log 10). -/

namespace Sys2Proof.Machine

/-- `RESET` (42_radio_port.md R221), in two micro-steps: the line goes low (41_link_layer.md R186), and at
`(Resetting, 1)` it goes high (R187). -/
def execReset (pin : Byte) (s : State) : Result :=
  if s.lstate = .resetting ∧ s.istep = 1 then
    .next ((s.driveReset pin true .resetHigh).setPc .initializing 0)
  else .next ((s.driveReset pin false .resetLow).setPc .resetting 1)

/-- `BRINGUP` (42_radio_port.md R222, 41_link_layer.md R188). -/
def execBringup (cs irq : Byte) (s : State) : Result :=
  let ok := s.radio.bringupAnswer
  let s1 := s.exchange (.bringup cs irq) (.bool ok) s.radio.afterBringup
  .next (if ok then s1.setPc .initializing 1 else s1.raise (.fatalInit .bringUp))

/-- `SETFREQ` (42_radio_port.md R223, 41_link_layer.md R189). -/
def execSetfreq (mhz : Word) (s : State) : Result :=
  let ok := s.radio.setfreqAnswer
  let s1 := s.exchange (.setfreq mhz) (.bool ok) s.radio.afterSetfreq
  .next (if ok then s1.setPc .initializing 2 else s1.raise (.fatalInit .setFreq))

/-- `SETADDR` (42_radio_port.md R224, 41_link_layer.md R190). -/
def execSetaddr (id : Byte) (s : State) : Result :=
  .next ((s.exchange (.setaddr id) .none s.radio).setPc .initializing 3)

/-- `SETPROMISC` (42_radio_port.md R225, 41_link_layer.md R191). -/
def execSetpromisc (on : Bool) (s : State) : Result :=
  .next ((s.exchange (.setpromisc on) .none s.radio).setPc .initializing 4)

/-- `SETTXPOWER` (42_radio_port.md R226, 41_link_layer.md R192): `INIT` ends after it. -/
def execSettxpower (dbm : Byte) (boost : Bool) (s : State) : Result :=
  .next (s.exchange (.settxpower dbm boost) .none s.radio).initDone

/-- `SENDBYTES` (42_radio_port.md R227). -/
def execSendbytes (buf : List Byte) (s : State) : Result := .next (s.sendBytes buf)

/-- `RECVBYTES` (42_radio_port.md R228). -/
def execRecvbytes (tmoEn : Bool) (tmo : Word) (s : State) : Result := .next (s.recvBytes tmoEn tmo)

end Sys2Proof.Machine
end

