-- ==== Sys2Proof/Machine/Dispatch.lean ====
section
/-! DEFINITION. One arm for each instruction. -/

namespace Sys2Proof.Machine

def exec (i : Instr) (s : State) : Host.Outcome State Fault Refusal :=
  match i with
  -- host commands: the codec
  | .encAbs => Sys2Proof.Machine.execEncAbs s
  | .decAbs => Sys2Proof.Machine.execDecAbs s
  | .encRel => Sys2Proof.Machine.execEncRel s
  | .decRel => Sys2Proof.Machine.execDecRel s
  -- host commands: the link
  | .init => Sys2Proof.Machine.execInit s
  | .send => Sys2Proof.Machine.execSend s
  | .recv => Sys2Proof.Machine.execRecv s
  -- radio-port operations
  | .reset pin => Sys2Proof.Machine.execReset pin s
  | .bringup cs irq => Sys2Proof.Machine.execBringup cs irq s
  | .setfreq mhz => Sys2Proof.Machine.execSetfreq mhz s
  | .setaddr id => Sys2Proof.Machine.execSetaddr id s
  | .setpromisc on => Sys2Proof.Machine.execSetpromisc on s
  | .settxpower dbm boost => Sys2Proof.Machine.execSettxpower dbm boost s
  | .sendbytes buf => Sys2Proof.Machine.execSendbytes buf s
  | .recvbytes tmoEn tmo => Sys2Proof.Machine.execRecvbytes tmoEn tmo s
  -- frames
  | .frameAbs lat lon age => Sys2Proof.Machine.execFrameAbs lat lon age s
  | .frameRel dlat dlon age => Sys2Proof.Machine.execFrameRel dlat dlon age s
  -- reserved command bytes
  | .illegal opcode => Sys2Proof.Machine.execIllegal opcode s

end Sys2Proof.Machine
end

