-- ==== Sys2Proof/Machine/Fetch.lean ====
section
/-! DEFINITION. What the machine does next: the hardware reset first, then the sequencer's micro-step at
`pc = (LSTATE, ISTEP)`, the exchange a `RECV` waits for, or the host's next access. And where an instruction
stands so that the next step runs it. -/

namespace Sys2Proof.Machine

/-- What a step does. -/
inductive Turn where
  /-- It runs an instruction in a state. -/
  | run (i : Instr) (s : State)
  /-- It runs no instruction and gives this state. -/
  | next (s : State)
  /-- No rule enables a step (log 15). -/
  | stuck
  deriving DecidableEq, Repr

/-- The sequencer's micro-step while `INIT` runs (41_link_layer.md R186 to R192): the port operation at the
pc, with its arguments from `LCFG`. At `(Initializing, 4)` with no power configured it only ends `INIT`. -/
def State.microStep (s : State) : Turn :=
  match s.lstate, s.istep.toNat with
  | .resetting, 0 => .run (.reset s.lcfg.resetPin) s
  | .resetting, 1 => .run (.reset s.lcfg.resetPin) s
  | .initializing, 0 => .run (.bringup s.lcfg.csPin s.lcfg.irqPin) s
  | .initializing, 1 => .run (.setfreq s.lcfg.freq) s
  | .initializing, 2 => .run (.setaddr s.lcfg.addr) s
  | .initializing, 3 => .run (.setpromisc false) s
  | .initializing, 4 =>
    if s.lcfg.txpEn then .run (.settxpower s.lcfg.txp s.params.useBoostPin) s else .next s.initDone
  | _, _ => .stuck

/-- The host's next access, taken from its queue: a write to `CMD` issues a command, another write changes a
register, a read returns a value, `LOADRX` presents a frame or other bytes (20_memory.md R100 to R102, log 7,
log 13). With nothing issued the block waits (70_reset_and_hazards.md R280). -/
def State.hostTurn (s : State) : Turn :=
  match s.host with
  | [] => .next s
  | .write n v :: rest =>
    if n = 0x00 then .run (decodeCmd (BitVec.ofNat 8 (tc 8 v))) { s with host := rest }
    else .next ({ s with host := rest }.hostWrite n v)
  | .read n :: rest => .next { s with host := rest, hostReads := s.hostReads ++ [s.hostRead n] }
  | .loadRx bytes :: rest =>
    match decodeFrame s.params.byteOrder bytes with
    | .ok i => .run i { s with host := rest }
    | .error _ => .next ({ s with host := rest }.loadRx bytes)

/-- What the machine does next. -/
def State.turn (s : State) : Turn :=
  if s.resetReq then .next s.hardReset
  else
    match s.lstate with
    | .resetting | .initializing => s.microStep
    | .faulted => if s.istep = 0 then .next s.blink else .stuck
    | .uninitialized | .ready => if s.rxWait then .run (.recvbytes s.rxTmoEn s.rxTmo) s else s.hostTurn

/-- A state whose next step takes the host access `op`: it comes first in the host's queue, and the block is
made idle if it was not. -/
def State.placeHost (op : HostOp) (s : State) : State :=
  if s.lstate = .uninitialized ∨ s.lstate = .ready then
    { s with host := op :: s.host, resetReq := false, rxWait := false }
  else
    { s.setPc .uninitialized 0 with host := op :: s.host, resetReq := false, rxWait := false }

/-- A state whose next step is the port operation with number `op` and zero arguments: the pc and the
configuration fields from which the block issues it (log 12). `SENDBYTES` is issued by a `SEND` of the empty
buffer. A reserved number has no such state. -/
def State.placePort (op : BitVec 4) (s : State) : State :=
  let s1 := { s with resetReq := false, rxWait := false }
  match op.toNat with
  | 0 => { s1.setPc .resetting 0 with lcfg := { s.lcfg with resetPin := 0 } }
  | 1 => { s1.setPc .initializing 0 with lcfg := { s.lcfg with csPin := 0, irqPin := 0 } }
  | 2 => { s1.setPc .initializing 1 with lcfg := { s.lcfg with freq := 0 } }
  | 3 => { s1.setPc .initializing 2 with lcfg := { s.lcfg with addr := 0 } }
  | 4 => s1.setPc .initializing 3
  | 5 =>
    { s1.setPc .initializing 4 with
      lcfg := { s.lcfg with txpEn := true, txp := 0 }
      params := { s.params with useBoostPin := false } }
  | 6 => { s1.setPc .ready 0 with txlen := 0, host := .write 0x00 0x11 :: s.host }
  | 7 => { s1.setPc .ready 0 with rxWait := true, rxTmoEn := false, rxTmo := 0 }
  | _ => s

/-- A state whose next step runs the instruction of a table word (log 12). -/
def State.place (c : Code) (s : State) : State :=
  match c with
  | .cmd b => s.placeHost (.write 0x00 b.toNat)
  | .frame bytes => s.placeHost (.loadRx bytes)
  | .port op _ => s.placePort op

end Sys2Proof.Machine
end

