-- ==== Sys2Proof/Machine/Step.lean ====
section
/-! DEFINITION. One step of the machine, and where an instruction is stored for the next step. -/

namespace Sys2Proof.Machine

/-- One step: what the machine does next is decided by `State.turn`, and an instruction is run by `exec`. -/
def step (s : State) : Host.Outcome State Fault Refusal :=
  match s.turn with
  | .run i s' => exec i s'
  | .next s' => .next s'
  | .stuck => .fault .noMicroStep

/-- `s` with the instruction of a table word placed where the next step takes it from (log 7, log 12). -/
def State.withFetchWord (s : State) (nbits w : Nat) : State := s.place (tableCode nbits w)

end Sys2Proof.Machine
end

