-- ==== Sys2Proof/Safety.lean ====
section
/-! DEFINITION. What a safe state and a safe run are: the invariant of the machine, the order of the events in
`TRACE`, and runs that no step stops. -/

namespace Sys2Proof.Machine

/-- The values `pc = (LSTATE, ISTEP)` takes (10_state.md R61). -/
def pcLegal (l : LState) (k : BitVec 3) : Bool :=
  match l with
  | .uninitialized | .ready | .faulted => decide (k = 0)
  | .resetting => decide (k.toNat ≤ 1)
  | .initializing => decide (k.toNat ≤ 4)

/-- The invariant. Each clause names its rule. -/
structure Inv (s : State) : Prop where
  /-- The parameters meet 00_scope.md R16, R17, R19. -/
  params : s.params.Valid
  /-- The registers of parametric width hold patterns of their width (10_state.md R41, R42, R44). -/
  widths : s.ilat < 2 ^ s.params.coordW ∧ s.ilon < 2 ^ s.params.coordW ∧ s.iage < 2 ^ s.params.ageW ∧
    s.olat < 2 ^ s.params.coordW ∧ s.olon < 2 ^ s.params.coordW
  /-- `TXB` is canonical and has nine bytes (10_state.md R46, log 3). -/
  txb : Memory.wf s.txb = true ∧ Memory.below 9 s.txb = true
  /-- `RXB` is canonical and has `RX_CAP` bytes (10_state.md R48, log 3). -/
  rxb : Memory.wf s.rxb = true ∧ Memory.below s.params.rxCap s.rxb = true
  /-- `TXLEN` is 0, 7 or 9 (10_state.md R47). -/
  txlen : s.txlen = 0 ∨ s.txlen = 7 ∨ s.txlen = 9
  /-- `pc` takes only the values of 10_state.md R61. -/
  pc : pcLegal s.lstate s.istep = true
  /-- `FCAUSE` is written on entry to `Faulted` and only there (10_state.md R54). -/
  fcause : s.fcause = none ↔ s.lstate ≠ .faulted
  /-- `STATUS = FATAL_INIT` in `Faulted` and only there (41_link_layer.md R206, 60_exceptions.md R245). -/
  status : s.status = .fatalInit ↔ s.lstate = .faulted
  /-- The configuration is locked exactly when an `INIT` has been accepted (10_state.md R56). -/
  lock : s.cfglock = true ↔ s.lstate ≠ .uninitialized
  /-- An accepted configuration carries no illegal power (41_link_layer.md R185). -/
  power : s.cfglock = true → cfgIllegal s.lcfg = false
  /-- Only a `RECV` without a timeout in `Ready` waits (41_link_layer.md R202, log 6). -/
  wait : s.rxWait = true → s.lstate = .ready ∧ s.rxTmoEn = false
  /-- The reset line is low exactly between the two halves of the pulse (41_link_layer.md R186, R187). -/
  rstLine : s.rstLine = false ↔ s.lstate = .resetting ∧ s.istep = 1
  /-- The indicator is off until the first blink step (41_link_layer.md R205). -/
  ind : s.lstate ≠ .faulted → s.ind = false

/-- The events of the reset pulse (42_radio_port.md R221). -/
def resetEvents (pin : Byte) : List Event :=
  [.rstLine pin false, .delay .resetLow, .rstLine pin true, .delay .resetHigh]

/-- The events of an accepted `INIT` with answers `b1` to `BRINGUP` and `b2` to `SETFREQ`
(41_link_layer.md R197). -/
def initEvents (c : LinkCfg) (boost b1 b2 : Bool) : List Event :=
  resetEvents c.resetPin ++ [.portCall (.bringup c.csPin c.irqPin) (.bool b1)] ++
    if b1 = false then []
    else [.portCall (.setfreq c.freq) (.bool b2)] ++
      if b2 = false then []
      else [.portCall (.setaddr c.addr) .none, .portCall (.setpromisc false) .none] ++
        if c.txpEn then [.portCall (.settxpower c.txp boost) .none] else []

/-- `n` blink steps, the first of which drives the indicator to `level` (41_link_layer.md R205). -/
def blinkEvents : Nat → Bool → List Event
  | 0, _ => []
  | n + 1, level => .indToggle level :: .delay .blink :: blinkEvents n (!level)

/-- Whether an event is a `SENDBYTES` or a `RECVBYTES` exchange. -/
def isTransfer : Event → Bool
  | .portCall (.sendbytes _) _ => true
  | .portCall (.recvbytes _ _) _ => true
  | _ => false

/-- Whether an event is a `BRINGUP` exchange. -/
def isBringup : Event → Bool
  | .portCall (.bringup _ _) _ => true
  | _ => false

/-- Whether an event is a `SETFREQ` exchange. -/
def isSetfreq : Event → Bool
  | .portCall (.setfreq _) _ => true
  | _ => false

/-- The order of the events in `TRACE` (42_radio_port.md R230): what stands in it at each pc. -/
def TraceOrder (s : State) : Prop :=
  match s.lstate with
  | .uninitialized => s.trace = []
  | .resetting => s.trace = (resetEvents s.lcfg.resetPin).take (2 * s.istep.toNat)
  | .initializing =>
    s.trace = (initEvents { s.lcfg with txpEn := false } s.params.useBoostPin true true).take
      (4 + s.istep.toNat)
  | .ready => ∃ l, s.trace = initEvents s.lcfg s.params.useBoostPin true true ++ l ∧ l.all isTransfer = true
  | .faulted =>
    ∃ n, s.ind = decide (n % 2 = 1) ∧
      ((s.fcause = some .bringUp ∧
          s.trace = initEvents s.lcfg s.params.useBoostPin false false ++ blinkEvents n true) ∨
        (s.fcause = some .setFreq ∧
          s.trace = initEvents s.lcfg s.params.useBoostPin true false ++ blinkEvents n true))

/-- `n` steps, up to the first that stops. -/
def steps : Nat → State → Result
  | 0, s => .next s
  | n + 1, s =>
    match step s with
    | .next t => steps n t
    | .fault f => .fault f
    | .refused r => .refused r

/-- No step of the first `n` stops. -/
def SafeFor (n : Nat) (s : State) : Prop := ∃ t, steps n s = .next t

end Sys2Proof.Machine
end

