-- ==== Sys2Proof/Certificates/Slice0/Obligations.lean ====
section
/-! DEFINITION. The statements about the model, from the numbered rules of spec/. -/

open Sys2Proof Sys2Proof.Machine

/-! ## Numbers and encodings -/

/-- 00_scope.md R27: the two rounding rules over the exact rational `q = n / d`. Under `HalfAwayFromZero` the
result is `sign(q) * floor(|q| + 1/2)`; under `HalfToEven` it is a nearest integer, even at a tie; under both a
non-tie goes to the nearest integer, and so an integer to itself. -/
def Obligations.RoundingFollowsTheRationalRule : Prop :=
  ∀ (n : Int) (d : Nat) (q : ℚ), 0 < d → q = (n : ℚ) / (d : ℚ) →
    roundDiv .halfAwayFromZero n d = (SignType.sign q : ℤ) * ⌊|q| + 1 / 2⌋ ∧
    |q - (roundDiv .halfToEven n d : ℚ)| ≤ 1 / 2 ∧
    (|q - (roundDiv .halfToEven n d : ℚ)| = 1 / 2 → roundDiv .halfToEven n d % 2 = 0) ∧
    ∀ (m : RoundMode) (z : Int), |q - (z : ℚ)| < 1 / 2 → roundDiv m n d = z

/-- 00_scope.md R26: `tc_N(v)` is the non-negative remainder of `v` modulo `2^N`, it represents an integer in the
signed range exactly, and `sext_N` reads a pattern as the integer of the signed range that it represents. -/
def Obligations.TwosComplementIsExactInRange : Prop :=
  ∀ (n : Nat), 1 ≤ n →
    (∀ v : Int, ((tc n v : Nat) : Int) = v % ((2 ^ n : Nat) : Int) ∧
      (-((2 ^ (n - 1) : Nat) : Int) ≤ v ∧ v < ((2 ^ (n - 1) : Nat) : Int) → sext n (tc n v) = v)) ∧
    (∀ p : Nat, p < 2 ^ n →
      sext n p = (if p < 2 ^ (n - 1) then (p : Int) else (p : Int) - ((2 ^ n : Nat) : Int)) ∧
      -((2 ^ (n - 1) : Nat) : Int) ≤ sext n p ∧ sext n p < ((2 ^ (n - 1) : Nat) : Int) ∧
      tc n (sext n p) = p)

/-- 00_scope.md R28: under `LE` byte `i` of `bytes_N(p)` is `p[8i+7:8i]`, under `BE` it is
`p[8(N-1-i)+7:8(N-1-i)]`, and `word_N` is the inverse of `bytes_N`. -/
def Obligations.FieldBytesFollowTheByteOrder : Prop :=
  (∀ n p i : Nat, i < n →
    (bytesN .le n p)[i]? = some (BitVec.ofNat 8 (p / 2 ^ (8 * i))) ∧
    (bytesN .be n p)[i]? = some (BitVec.ofNat 8 (p / 2 ^ (8 * (n - 1 - i))))) ∧
  (∀ (bo : ByteOrder) (n p : Nat), p < 2 ^ (8 * n) → wordN bo (bytesN bo n p) = p) ∧
  (∀ (bo : ByteOrder) (bs : List Byte), bytesN bo bs.length (wordN bo bs) = bs)

/-- 40_payload_codec.md R152: the age byte is 255 for no fix and from 255 minutes on, 0 for a negative age, and
the age itself from 0 to 254. -/
def Obligations.AgeByteIsClamped : Prop :=
  ∀ a : Int,
    (age8 false a).toNat = 255 ∧
    (255 ≤ a → (age8 true a).toNat = 255) ∧
    (a < 0 → (age8 true a).toNat = 0) ∧
    (0 ≤ a → a ≤ 254 → ((age8 true a).toNat : Int) = a)

/-- Decoding what the encoder wrote gives the instruction back, for every well-formed instruction, every operand
and both byte orders (30_encoding.md R112, R113, R114, R115, R116, R125). -/
def Obligations.DecodeOfEncodeIsTheInstruction : Prop :=
  ∀ (bo : ByteOrder) (i : Instr), i.wf = true → decode bo (encode bo i) = .ok i

/-- Whatever the decoder accepts is a well-formed instruction whose encoding is the code read, so no two codes
stand for one instruction (30_encoding.md R110, R119, R125). -/
def Obligations.EncodeOfDecodeIsTheCode : Prop :=
  ∀ (bo : ByteOrder) (c : Code) (i : Instr), decode bo c = .ok i → i.wf = true ∧ encode bo i = c

/-- A few words written out from the tables decode to the instructions they stand for (30_encoding.md R112, R113,
R116, R125; the frames are those of 95_test_vectors.md A1 and ER2). -/
def Obligations.SampleWordsDecode : Prop :=
  decode .le (.cmd 0x02#8) = .ok .decAbs ∧
  decode .le (.cmd 0x10#8) = .ok .init ∧
  decode .le (.cmd 0x13#8) = .ok (.illegal 0x13#8) ∧
  decode .le (.port 0x2#4 [.word 0x4464C000#32]) = .ok (.setfreq 0x4464C000#32) ∧
  decode .le (.frame [0xf4#8, 0x32#8, 0xa4#8, 0xf8#8, 0x40#8, 0xa5#8, 0xae#8, 0x02#8, 0x0a#8]) =
    .ok (.frameAbs 0xF8A432F4#32 0x02AEA540#32 0x0a#8) ∧
  decode .be (.frame [0x3f#8, 0x58#8, 0x00#8, 0x7b#8, 0xfe#8, 0x38#8, 0x02#8]) =
    .ok (.frameRel 0x007B#16 0xFE38#16 0x02#8)

/-! ## The codec -/

/-- 40_payload_codec.md R155: `ENC_ABS`, byte 0x01, writes the nine bytes of the absolute frame, `TXLEN = 9` and
`STATUS = OK`; under `RANGE_POLICY = Fault` a coordinate whose rounded value does not fit raises `EncRange`
instead. Nothing else changes. -/
def Obligations.EncAbsWritesTheAbsoluteFrame : Prop :=
  decodeCmd 0x01 = .encAbs ∧
  ∀ (s : State) (la lo : Int), Memory.wf s.txb = true →
    la = roundDiv s.params.round (sext s.params.coordW s.ilat) (qAbs s.params) →
    lo = roundDiv s.params.round (sext s.params.coordW s.ilon) (qAbs s.params) →
    let fits := -2147483648 ≤ la ∧ la ≤ 2147483647 ∧ -2147483648 ≤ lo ∧ lo ≤ 2147483647
    ((s.params.rangePolicy = .wrap ∨ fits) →
      ∃ t, exec .encAbs s = .next t ∧
        t = { s with txb := t.txb, txlen := 9, status := .ok } ∧
        t.txb.readBytes 0 4 = bytesN s.params.byteOrder 4 (tc 32 la) ∧
        t.txb.readBytes 4 4 = bytesN s.params.byteOrder 4 (tc 32 lo) ∧
        t.txb.read 8 = age8 s.ihasfix (sext s.params.ageW s.iage) ∧
        ∀ i, 9 ≤ i → t.txb.read i = s.txb.read i) ∧
    (s.params.rangePolicy = .fault → ¬ fits →
      exec .encAbs s = .next { s with txlen := 0, status := .encRange })

/-- 40_payload_codec.md R160: `ENC_REL`, byte 0x03, writes the seven bytes of the relative frame, `TXLEN = 7` and
`STATUS = OK`; `TXB[7]` and `TXB[8]` keep their values; under `RANGE_POLICY = Fault` an offset whose rounded value
is outside -32767 to 32767 raises `EncRange` instead. Nothing else changes. -/
def Obligations.EncRelWritesTheRelativeFrame : Prop :=
  decodeCmd 0x03 = .encRel ∧
  ∀ (s : State) (dla dlo : Int), Memory.wf s.txb = true →
    dla = roundDiv s.params.round (sext s.params.coordW s.ilat - s.params.refLatQ) (qRel s.params) →
    dlo = roundDiv s.params.round (sext s.params.coordW s.ilon - s.params.refLonQ) (qRel s.params) →
    let fits := -32767 ≤ dla ∧ dla ≤ 32767 ∧ -32767 ≤ dlo ∧ dlo ≤ 32767
    ((s.params.rangePolicy = .wrap ∨ fits) →
      ∃ t, exec .encRel s = .next t ∧
        t = { s with txb := t.txb, txlen := 7, status := .ok } ∧
        t.txb.read 0 = 0x3f#8 ∧ t.txb.read 1 = 0x58#8 ∧
        t.txb.readBytes 2 2 = bytesN s.params.byteOrder 2 (tc 16 dla) ∧
        t.txb.readBytes 4 2 = bytesN s.params.byteOrder 2 (tc 16 dlo) ∧
        t.txb.read 6 = age8 s.ihasfix (sext s.params.ageW s.iage) ∧
        ∀ i, 7 ≤ i → t.txb.read i = s.txb.read i) ∧
    (s.params.rangePolicy = .fault → ¬ fits →
      exec .encRel s = .next { s with txlen := 0, status := .encRange })

/-- 40_payload_codec.md R157: `DEC_ABS`, byte 0x02, of nine bytes gives `OLAT`, `OLON`, `OAGE` and `STATUS = OK`, with no
overflow of `COORD_W` bits when the parameters are valid; any other length raises `BadLength`. Nothing else
changes. -/
def Obligations.DecAbsReadsTheAbsoluteFrame : Prop :=
  decodeCmd 0x02 = .decAbs ∧
  ∀ (s : State) (flat flon : Int),
    flat = sext 32 (wordN s.params.byteOrder (s.rxb.readBytes 0 4)) →
    flon = sext 32 (wordN s.params.byteOrder (s.rxb.readBytes 4 4)) →
    (s.rxlen = 9#8 →
      ∃ t, exec .decAbs s = .next t ∧
        t = { s with olat := tc s.params.coordW (flat * qAbs s.params),
                     olon := tc s.params.coordW (flon * qAbs s.params),
                     oage := s.rxb.read 8, status := .ok } ∧
        (s.params.Valid →
          sext s.params.coordW t.olat = flat * qAbs s.params ∧
          sext s.params.coordW t.olon = flon * qAbs s.params)) ∧
    (s.rxlen ≠ 9#8 → exec .decAbs s = .next { s with status := .badLength })

/-- 40_payload_codec.md R163: `DEC_REL`, byte 0x04, of seven bytes with the magic gives `OLAT`, `OLON`, `OAGE` and
`STATUS = OK`, with no overflow when the parameters are valid; another length raises `BadLength`, and seven bytes
without the magic raise `BadMagic`. Nothing else changes. -/
def Obligations.DecRelReadsTheRelativeFrame : Prop :=
  decodeCmd 0x04 = .decRel ∧
  ∀ (s : State) (dlat dlon : Int),
    dlat = sext 16 (wordN s.params.byteOrder (s.rxb.readBytes 2 2)) →
    dlon = sext 16 (wordN s.params.byteOrder (s.rxb.readBytes 4 2)) →
    (s.rxlen ≠ 7#8 → exec .decRel s = .next { s with status := .badLength }) ∧
    (s.rxlen = 7#8 → ¬ (s.rxb.read 0 = 0x3f#8 ∧ s.rxb.read 1 = 0x58#8) →
      exec .decRel s = .next { s with status := .badMagic }) ∧
    (s.rxlen = 7#8 → s.rxb.read 0 = 0x3f#8 → s.rxb.read 1 = 0x58#8 →
      ∃ t, exec .decRel s = .next t ∧
        t = { s with olat := tc s.params.coordW (s.params.refLatQ + dlat * qRel s.params),
                     olon := tc s.params.coordW (s.params.refLonQ + dlon * qRel s.params),
                     oage := s.rxb.read 6, status := .ok } ∧
        (s.params.Valid →
          sext s.params.coordW t.olat = s.params.refLatQ + dlat * qRel s.params ∧
          sext s.params.coordW t.olon = s.params.refLonQ + dlon * qRel s.params))

/-- Absolute round trip (40_payload_codec.md R166). The rule names no range policy; under `Wrap` it cannot hold of
a coordinate outside the field, so the statement asks for `Fault` or for coordinates that fit (log 20). The
receiving state `r` is any state of a unit with the same parameters that holds the frame. -/
def Obligations.AbsoluteRoundTrip : Prop :=
  ∀ s t r : State, s.params.Valid → Memory.wf s.txb = true →
    (s.params.rangePolicy = .fault ∨
      (fitsAbs (toAbs s.params s.inLat) = true ∧ fitsAbs (toAbs s.params s.inLon) = true)) →
    exec .encAbs s = .next t → t.status = .ok →
    r.params = s.params → r.rxlen = 9#8 → r.rxb.readBytes 0 9 = t.txb.readBytes 0 9 →
    ∃ u, exec .decAbs r = .next u ∧ u.status = .ok ∧
      u.oage = age8 s.ihasfix (sext s.params.ageW s.iage) ∧
      2 * |u.outLat - s.inLat| ≤ qAbs s.params ∧ 2 * |u.outLon - s.inLon| ≤ qAbs s.params ∧
      ((qAbs s.params : Int) ∣ s.inLat → u.outLat = s.inLat) ∧
      ((qAbs s.params : Int) ∣ s.inLon → u.outLon = s.inLon)

/-- 40_payload_codec.md R167: relative round trip with precision bound. -/
def Obligations.RelativeRoundTrip : Prop :=
  ∀ s t r : State, s.params.Valid → Memory.wf s.txb = true → s.params.rangePolicy = .fault →
    exec .encRel s = .next t → t.status = .ok →
    r.params = s.params → r.rxlen = 7#8 → r.rxb.readBytes 0 7 = t.txb.readBytes 0 7 →
    ∃ u, exec .decRel r = .next u ∧ u.status = .ok ∧
      u.oage = age8 s.ihasfix (sext s.params.ageW s.iage) ∧
      2 * |u.outLat - s.inLat| ≤ qRel s.params ∧ 2 * |u.outLon - s.inLon| ≤ qRel s.params ∧
      ((qRel s.params : Int) ∣ s.inLat - s.params.refLatQ → u.outLat = s.inLat) ∧
      ((qRel s.params : Int) ∣ s.inLon - s.params.refLonQ → u.outLon = s.inLon)

/-- A frame decodes to the encoded position on another unit, whatever its rounding rule, range policy, register
unit and register width, when the byte order and the reference in degrees agree (70_reset_and_hazards.md R286):
within half a frame unit of a degree. -/
def Obligations.FramesCrossBetweenUnits : Prop :=
  ∀ s t r : State, s.params.Valid → r.params.Valid → Memory.wf s.txb = true →
    s.params.rangePolicy = .fault → r.params.byteOrder = s.params.byteOrder →
    (r.params.refLatQ : ℚ) / r.params.coordDen = (s.params.refLatQ : ℚ) / s.params.coordDen →
    (r.params.refLonQ : ℚ) / r.params.coordDen = (s.params.refLonQ : ℚ) / s.params.coordDen →
    t.status = .ok →
    (exec .encAbs s = .next t → r.rxlen = 9#8 → r.rxb.readBytes 0 9 = t.txb.readBytes 0 9 →
      ∃ u, exec .decAbs r = .next u ∧ u.status = .ok ∧
        |(u.outLat : ℚ) / r.params.coordDen - (s.inLat : ℚ) / s.params.coordDen| ≤ 1 / 2000000 ∧
        |(u.outLon : ℚ) / r.params.coordDen - (s.inLon : ℚ) / s.params.coordDen| ≤ 1 / 2000000) ∧
    (exec .encRel s = .next t → r.rxlen = 7#8 → r.rxb.readBytes 0 7 = t.txb.readBytes 0 7 →
      ∃ u, exec .decRel r = .next u ∧ u.status = .ok ∧
        |(u.outLat : ℚ) / r.params.coordDen - (s.inLat : ℚ) / s.params.coordDen| ≤ 1 / 200000 ∧
        |(u.outLon : ℚ) / r.params.coordDen - (s.inLon : ℚ) / s.params.coordDen| ≤ 1 / 200000)

/-- 40_payload_codec.md R168: seven bytes without the magic never give a fix. -/
def Obligations.AlteredMagicIsRejected : Prop :=
  ∀ s : State, s.rxlen = 7#8 → (s.rxb.read 0, s.rxb.read 1) ≠ (0x3f#8, 0x58#8) →
    ∃ t, exec .decRel s = .next t ∧ t.status = .badMagic ∧
      t.olat = s.olat ∧ t.olon = s.olon ∧ t.oage = s.oage

/-- 40_payload_codec.md R169: the sentinel survives encode, copy and decode in both variants. -/
def Obligations.SentinelSurvivesTheRoundTrip : Prop :=
  ∀ s t r : State, Memory.wf s.txb = true → age8 s.ihasfix (sext s.params.ageW s.iage) = 255#8 →
    t.status = .ok →
    (exec .encAbs s = .next t → r.rxlen = 9#8 → r.rxb.readBytes 0 9 = t.txb.readBytes 0 9 →
      ∃ u, exec .decAbs r = .next u ∧ u.oage = 255#8) ∧
    (exec .encRel s = .next t → r.rxlen = 7#8 → r.rxb.readBytes 0 7 = t.txb.readBytes 0 7 →
      ∃ u, exec .decRel r = .next u ∧ u.oage = 255#8)

/-- 40_payload_codec.md R170: under `Fault`, `ENC_REL` stores the rounded offset in each field, or raises
`EncRange` and leaves `TXLEN = 0`. -/
def Obligations.RelativeOffsetsNeverWrap : Prop :=
  ∀ s : State, Memory.wf s.txb = true → s.params.rangePolicy = .fault →
    ∃ t, exec .encRel s = .next t ∧
      ((sext 16 (wordN s.params.byteOrder (t.txb.readBytes 2 2)) = toRel s.params s.inLat s.params.refLatQ ∧
        sext 16 (wordN s.params.byteOrder (t.txb.readBytes 4 2)) = toRel s.params s.inLon s.params.refLonQ ∧
        t.status = .ok) ∨
       (t.status = .encRange ∧ t.txlen = 0))

/-- 40_payload_codec.md R150: the result of a codec command depends on its operand registers and the parameters
alone, and the command touches neither the link state, nor the lines, nor the trace. Two states that agree on the
operands and on what the outputs held get the same outputs, whatever else differs. -/
def Obligations.CodecDependsOnItsOperandsAlone : Prop :=
  ∀ (i : Instr) (s r : State), i ∈ [Instr.encAbs, .decAbs, .encRel, .decRel] →
    (r.params, r.ilat, r.ilon, r.iage, r.ihasfix, r.rxlen, r.rxb) =
      (s.params, s.ilat, s.ilon, s.iage, s.ihasfix, s.rxlen, s.rxb) →
    (r.txb, r.txlen, r.olat, r.olon, r.oage) = (s.txb, s.txlen, s.olat, s.olon, s.oage) →
    ∃ t u, exec i s = .next t ∧ exec i r = .next u ∧
      t = { s with txb := t.txb, txlen := t.txlen, olat := t.olat, olon := t.olon, oage := t.oage,
                   status := t.status } ∧
      u = { r with txb := t.txb, txlen := t.txlen, olat := t.olat, olon := t.olon, oage := t.oage,
                   status := t.status }

/-- A frame row stands in `RXB` with its length in `RXLEN`, and the decoder of its format then gives its fields:
the coordinates scaled to register units, the offsets added to the reference, the age as it is. That running a
frame row presents the frame is the model's choice (log 13); what the fields mean is 30_encoding.md R114, R115,
R120, R122. -/
def Obligations.FrameRowsCarryTheirFields : Prop :=
  ∀ s : State, s.params.Valid → Memory.wf s.rxb = true →
    (∀ (lat lon : Word) (age : Byte),
      ∃ t u, exec (.frameAbs lat lon age) s = .next t ∧
        t = { s with rxb := t.rxb, rxlen := 9#8 } ∧
        t.rxb.readBytes 0 9 = bytesN s.params.byteOrder 4 lat.toNat ++
          bytesN s.params.byteOrder 4 lon.toNat ++ [age] ∧
        (∀ j, 9 ≤ j → t.rxb.read j = s.rxb.read j) ∧
        exec .decAbs t = .next u ∧ u.status = .ok ∧ u.oage = age ∧
        u.outLat = lat.toInt * qAbs s.params ∧ u.outLon = lon.toInt * qAbs s.params) ∧
    (∀ (dlat dlon : Half) (age : Byte),
      ∃ t u, exec (.frameRel dlat dlon age) s = .next t ∧
        t = { s with rxb := t.rxb, rxlen := 7#8 } ∧
        t.rxb.readBytes 0 7 = [0x3f#8, 0x58#8] ++ bytesN s.params.byteOrder 2 dlat.toNat ++
          bytesN s.params.byteOrder 2 dlon.toNat ++ [age] ∧
        (∀ j, 7 ≤ j → t.rxb.read j = s.rxb.read j) ∧
        exec .decRel t = .next u ∧ u.status = .ok ∧ u.oage = age ∧
        u.outLat = s.params.refLatQ + dlat.toInt * qRel s.params ∧
        u.outLon = s.params.refLonQ + dlon.toInt * qRel s.params)

/-! ## The link -/

/-- `INIT`, byte 0x10 (41_link_layer.md R185): outside `Uninitialized` it raises `WrongState`; there, a configured power
outside 5 to 23 raises `CfgInvalid`; otherwise it latches the configuration, locks it and enters
`(Resetting, 0)`. Nothing else changes. -/
def Obligations.InitIsAcceptedOrRefused : Prop :=
  decodeCmd 0x10 = .init ∧
  ∀ s : State,
    (s.lstate ≠ .uninitialized → exec .init s = .next { s with status := .wrongState }) ∧
    (s.lstate = .uninitialized → s.cfg.txpEn = true →
      ¬ (5 ≤ sext 8 s.cfg.txp.toNat ∧ sext 8 s.cfg.txp.toNat ≤ 23) →
      exec .init s = .next { s with status := .cfgInvalid }) ∧
    (s.lstate = .uninitialized →
      (s.cfg.txpEn = true → 5 ≤ sext 8 s.cfg.txp.toNat ∧ sext 8 s.cfg.txp.toNat ≤ 23) →
      exec .init s =
        .next { s with lcfg := s.cfg, cfglock := true, lstate := .resetting, istep := 0 })

/-- 41_link_layer.md R186 and R187: the two halves of the reset pulse, at their pc. -/
def Obligations.ResetPulseDrivesTheLineLowThenHigh : Prop :=
  ∀ s : State, s.resetReq = false → s.lstate = .resetting →
    (s.istep = 0 →
      step s = exec (.reset s.lcfg.resetPin) s ∧
      exec (.reset s.lcfg.resetPin) s =
        .next { s with rstLine := false,
                       trace := s.trace ++ [.rstLine s.lcfg.resetPin false, .delay .resetLow],
                       istep := 1 }) ∧
    (s.istep = 1 →
      step s = exec (.reset s.lcfg.resetPin) s ∧
      exec (.reset s.lcfg.resetPin) s =
        .next { s with rstLine := true,
                       trace := s.trace ++ [.rstLine s.lcfg.resetPin true, .delay .resetHigh],
                       lstate := .initializing, istep := 0 })

/-- 41_link_layer.md R188: at `(Initializing, 0)` the block issues `BRINGUP` with the two pins; true continues,
false takes the fatal exception with cause 1. Nothing else changes. That the answer is a draw of the peripheral is
00_scope.md R33 and 42_radio_port.md R220; its form, the head of a queue or else a free value and a counter that
advances, is the model's choice (log 5). -/
def Obligations.BringupContinuesOrFails : Prop :=
  ∀ s : State, s.resetReq = false → s.lstate = .initializing → s.istep = 0 →
    step s = exec (.bringup s.lcfg.csPin s.lcfg.irqPin) s ∧
    ∃ (ok : Bool) (r : Radio),
      (∀ b q, s.radio.bringup = b :: q → ok = b ∧ r = { s.radio with bringup := q }) ∧
      (s.radio.bringup = [] → r = { s.radio with count := s.radio.count + 1 }) ∧
      exec (.bringup s.lcfg.csPin s.lcfg.irqPin) s =
        .next
          (if ok then
            { s with trace := s.trace ++ [.portCall (.bringup s.lcfg.csPin s.lcfg.irqPin) (.bool true)],
                     radio := r, istep := 1 }
          else
            { s with trace := s.trace ++ [.portCall (.bringup s.lcfg.csPin s.lcfg.irqPin) (.bool false)],
                     radio := r, fcause := some .bringUp, status := .fatalInit, lstate := .faulted,
                     istep := 0 })

/-- 41_link_layer.md R189: at `(Initializing, 1)` the block issues `SETFREQ` with the latched pattern bit for bit;
true continues, false takes the fatal exception with cause 2. Nothing else changes. That the answer is a draw of
the peripheral is 00_scope.md R33 and 42_radio_port.md R220; its form, the head of a queue or else a free value and
a counter that advances, is the model's choice (log 5). -/
def Obligations.SetfreqContinuesOrFails : Prop :=
  ∀ s : State, s.resetReq = false → s.lstate = .initializing → s.istep = 1 →
    step s = exec (.setfreq s.lcfg.freq) s ∧
    ∃ (ok : Bool) (r : Radio),
      (∀ b q, s.radio.setfreq = b :: q → ok = b ∧ r = { s.radio with setfreq := q }) ∧
      (s.radio.setfreq = [] → r = { s.radio with count := s.radio.count + 1 }) ∧
      exec (.setfreq s.lcfg.freq) s =
        .next
          (if ok then
            { s with trace := s.trace ++ [.portCall (.setfreq s.lcfg.freq) (.bool true)],
                     radio := r, istep := 2 }
          else
            { s with trace := s.trace ++ [.portCall (.setfreq s.lcfg.freq) (.bool false)],
                     radio := r, fcause := some .setFreq, status := .fatalInit, lstate := .faulted,
                     istep := 0 })

/-- 41_link_layer.md R190 and R191: at `(Initializing, 2)` the block issues `SETADDR` with the latched address,
at `(Initializing, 3)` `SETPROMISC` with 0, and goes on. Nothing else changes. -/
def Obligations.AddressThenPromiscuousOff : Prop :=
  ∀ s : State, s.resetReq = false → s.lstate = .initializing →
    (s.istep = 2 →
      step s = exec (.setaddr s.lcfg.addr) s ∧
      exec (.setaddr s.lcfg.addr) s =
        .next { s with trace := s.trace ++ [.portCall (.setaddr s.lcfg.addr) .none], istep := 3 }) ∧
    (s.istep = 3 →
      step s = exec (.setpromisc false) s ∧
      exec (.setpromisc false) s =
        .next { s with trace := s.trace ++ [.portCall (.setpromisc false) .none], istep := 4 })

/-- 41_link_layer.md R192: at `(Initializing, 4)` the block issues `SETTXPOWER` exactly when the configuration
carries a power; then `STATUS = OK` and `pc = (Ready, 0)`. Nothing else changes. -/
def Obligations.PowerThenReady : Prop :=
  ∀ s : State, s.resetReq = false → s.lstate = .initializing → s.istep = 4 →
    (s.lcfg.txpEn = true →
      step s = exec (.settxpower s.lcfg.txp s.params.useBoostPin) s ∧
      exec (.settxpower s.lcfg.txp s.params.useBoostPin) s =
        .next { s with trace := s.trace ++ [.portCall (.settxpower s.lcfg.txp s.params.useBoostPin) .none],
                       status := .ok, lstate := .ready, istep := 0 }) ∧
    (s.lcfg.txpEn = false → step s = .next { s with status := .ok, lstate := .ready, istep := 0 })

/-- The six port operations of `INIT` answer a next state with every operand, at every pc (42_radio_port.md R221
to R226). `RESET` has no exchange and records the line and delay events of one half of its pulse: the second half at
`(Resetting, 1)`, the first at any other pc. Each of the other five records its one `PortCall` event and moves the
pc; the answer of `BRINGUP` and of `SETFREQ` decides between going on and the fatal exception. Nothing else changes.
`SENDBYTES` and `RECVBYTES` are in `DataExchangesComplete`. That an operation may be run at any pc is the model's
choice (log 10), that `RESET` takes two steps is its reading (log 11), and the form of the peripheral's answers,
`bringupAnswer`, `setfreqAnswer` and the peripheral after them, is its choice (log 5). -/
def Obligations.PortOperationsRecordTheirExchange : Prop :=
  ∀ s : State,
    (∀ pin,
      (s.lstate = .resetting ∧ s.istep = 1 →
        exec (.reset pin) s =
          .next { s with rstLine := true, trace := s.trace ++ [.rstLine pin true, .delay .resetHigh],
                         lstate := .initializing, istep := 0 }) ∧
      (¬ (s.lstate = .resetting ∧ s.istep = 1) →
        exec (.reset pin) s =
          .next { s with rstLine := false, trace := s.trace ++ [.rstLine pin false, .delay .resetLow],
                         lstate := .resetting, istep := 1 })) ∧
    (∀ cs irq, ∃ t b, exec (.bringup cs irq) s = .next t ∧ b = s.radio.bringupAnswer ∧
      t = { s with trace := s.trace ++ [.portCall (.bringup cs irq) (.bool b)], radio := s.radio.afterBringup,
                   fcause := t.fcause, status := t.status, lstate := t.lstate, istep := t.istep } ∧
      (b = true → t.fcause = s.fcause ∧ t.status = s.status ∧ (t.lstate, t.istep) = (.initializing, 1)) ∧
      (b = false → t.fcause = some .bringUp ∧ t.status = .fatalInit ∧ (t.lstate, t.istep) = (.faulted, 0))) ∧
    (∀ mhz, ∃ t b, exec (.setfreq mhz) s = .next t ∧ b = s.radio.setfreqAnswer ∧
      t = { s with trace := s.trace ++ [.portCall (.setfreq mhz) (.bool b)], radio := s.radio.afterSetfreq,
                   fcause := t.fcause, status := t.status, lstate := t.lstate, istep := t.istep } ∧
      (b = true → t.fcause = s.fcause ∧ t.status = s.status ∧ (t.lstate, t.istep) = (.initializing, 2)) ∧
      (b = false → t.fcause = some .setFreq ∧ t.status = .fatalInit ∧ (t.lstate, t.istep) = (.faulted, 0))) ∧
    (∀ id, exec (.setaddr id) s =
      .next { s with trace := s.trace ++ [.portCall (.setaddr id) .none], lstate := .initializing,
                     istep := 3 }) ∧
    (∀ on, exec (.setpromisc on) s =
      .next { s with trace := s.trace ++ [.portCall (.setpromisc on) .none], lstate := .initializing,
                     istep := 4 }) ∧
    (∀ dbm boost, exec (.settxpower dbm boost) s =
      .next { s with trace := s.trace ++ [.portCall (.settxpower dbm boost) .none], status := .ok,
                     lstate := .ready, istep := 0 })

/-- 41_link_layer.md R197: an accepted `INIT` and the micro-steps after it are one big step with the two answers.
`exec .init` and then 3, 4 or 7 steps give the state the rule gives, with its events in the rule's order; after a false
answer every further step is a blink step, for ever; after two true answers the block is idle again. That `INIT` is
its acceptance and one micro-step a step, and so the numbers of steps, is the model's reading (log 9); the form of
the two answers and of the peripheral after them is its choice (log 5). -/
def Obligations.InitIsOneBigStep : Prop :=
  ∀ (s : State) (b1 b2 : Bool), s.resetReq = false → s.lstate = .uninitialized → s.idle = true →
    s.fcause = none → cfgIllegal s.cfg = false →
    b1 = s.radio.bringupAnswer → b2 = s.radio.afterBringup.setfreqAnswer →
    ∃ s0, exec .init s = .next s0 ∧
      (b1 = false → ∀ n,
        steps (3 + n) s0 =
          .next { s with lcfg := s.cfg, cfglock := true, lstate := .faulted, istep := 0,
                         fcause := some .bringUp, status := .fatalInit, rstLine := true,
                         ind := if n % 2 = 0 then s.ind else !s.ind,
                         trace := s.trace ++ initEvents s.cfg s.params.useBoostPin false b2 ++
                           blinkEvents n (!s.ind),
                         radio := s.radio.afterBringup }) ∧
      (b1 = true → b2 = false → ∀ n,
        steps (4 + n) s0 =
          .next { s with lcfg := s.cfg, cfglock := true, lstate := .faulted, istep := 0,
                         fcause := some .setFreq, status := .fatalInit, rstLine := true,
                         ind := if n % 2 = 0 then s.ind else !s.ind,
                         trace := s.trace ++ initEvents s.cfg s.params.useBoostPin true false ++
                           blinkEvents n (!s.ind),
                         radio := s.radio.afterBringup.afterSetfreq }) ∧
      (b1 = true → b2 = true →
        ∃ t, steps 7 s0 = .next t ∧ t.idle = true ∧
          t = { s with lcfg := s.cfg, cfglock := true, lstate := .ready, istep := 0,
                       fcause := none, status := .ok, rstLine := true,
                       trace := s.trace ++ initEvents s.cfg s.params.useBoostPin true true,
                       radio := s.radio.afterBringup.afterSetfreq })

/-- 41_link_layer.md R200: in `Ready`, `SEND`, byte 0x11, makes one `SENDBYTES` exchange with `TXB[0..TXLEN-1]` and writes
`OK` or `SEND_ERROR` after the answer; elsewhere it raises `WrongState` and issues nothing. Nothing else
changes. The form of the peripheral's answer, the head of a queue or else a free value and a counter that advances,
is the model's choice (log 5). -/
def Obligations.SendHandsOverTheFrame : Prop :=
  decodeCmd 0x11 = .send ∧
  ∀ s : State,
    (s.lstate ≠ .ready → exec .send s = .next { s with status := .wrongState }) ∧
    (s.lstate = .ready →
      ∃ (ok : Bool) (r : Radio),
        (∀ b q, s.radio.sendbytes = b :: q → ok = b ∧ r = { s.radio with sendbytes := q }) ∧
        (s.radio.sendbytes = [] → r = { s.radio with count := s.radio.count + 1 }) ∧
        exec .send s =
          .next { s with trace := s.trace ++
                           [.portCall (.sendbytes (s.txb.readBytes 0 s.txlen.toNat)) (.bool ok)],
                         radio := r, status := if ok then .ok else .sendError })

/-- 41_link_layer.md R202 and R203, `RECV`, byte 0x12: in `Ready`, a delivered byte sequence goes to `RXB` up to `RX_CAP`, the other
bytes of `RXB` keep their values, `RXLEN` takes the length up to 255 and `STATUS = OK`; the answer nothing gives
`RXLEN = 0` and `RECEIVE_ERROR` with `RXB` unchanged; outside `Ready`, `WrongState`. Nothing else changes. The form
of the peripheral's draw is the model's choice (log 5), the wait that ends with the command (`rxWait`) its reading
(log 6); a withheld answer is the subject of `UnansweredRecvWaits`. -/
def Obligations.RecvStoresWhatIsDelivered : Prop :=
  decodeCmd 0x12 = .recv ∧
  ∀ s : State, Memory.wf s.rxb = true →
    (s.lstate ≠ .ready → exec .recv s = .next { s with status := .wrongState }) ∧
    (∀ l, s.lstate = .ready → s.radio.recvbytesDraw = .bytes l →
      ∃ t, exec .recv s = .next t ∧
        t = { s with trace := s.trace ++ [.portCall (.recvbytes s.rxTmoEn s.rxTmo) (.bytes l)],
                     radio := s.radio.afterRecvbytes, rxb := t.rxb,
                     rxlen := BitVec.ofNat 8 (min l.length 255), status := .ok, rxWait := false } ∧
        (∀ i (h : i < l.length), i < s.params.rxCap → t.rxb.read i = l[i]) ∧
        (∀ i, min l.length s.params.rxCap ≤ i → t.rxb.read i = s.rxb.read i)) ∧
    (s.lstate = .ready → s.radio.recvbytesDraw = .nothing →
      exec .recv s =
        .next { s with trace := s.trace ++ [.portCall (.recvbytes s.rxTmoEn s.rxTmo) .nothing],
                       radio := s.radio.afterRecvbytes, rxlen := 0, status := .receiveError,
                       rxWait := false })

/-- `RECV` that is not answered (70_reset_and_hazards.md R298, 41_link_layer.md R202): without a timeout the
command stays in execution for as many steps as the peripheral withholds its answer, and nothing changes in the
block; with a timeout a withheld answer is the timeout with no data. How the model shows the wait is its reading
(log 6), the form of the peripheral's queue its choice (log 5). -/
def Obligations.UnansweredRecvWaits : Prop :=
  ∀ (s : State) (n : Nat) (q : List RecvDraw), s.resetReq = false → s.lstate = .ready →
    s.radio.recvbytes = List.replicate (n + 1) .withheld ++ q →
    (s.rxTmoEn = false →
      ∃ t, exec .recv s = .next t ∧
        steps n t =
          .next { s with radio := { s.radio with recvbytes := q }, rxWait := true }) ∧
    (s.rxTmoEn = true →
      ∃ t, exec .recv s = .next t ∧ t.status = .receiveError ∧ t.rxlen = 0 ∧ t.rxb = s.rxb ∧
        t.rxWait = false)

/-- The two data exchanges as the block issues them (42_radio_port.md R227, R228; 41_link_layer.md R200, R202,
R203): each answers a next state with every operand, and the peripheral's answer alone decides which.
`SENDBYTES`: true gives `OK`, false `SEND_ERROR`. `RECVBYTES`: a delivered byte sequence, of any length, is stored up
to `RX_CAP` with its length up to 255 in `RXLEN` and `STATUS = OK`; the answer nothing gives `RXLEN = 0` and
`RECEIVE_ERROR`; an answer withheld with a timeout is the answer nothing, and without a timeout the command stays in
execution with no event recorded. Nothing else changes. The block issues both only in `Ready`, and `SENDBYTES` only
with the 0, 7 or 9 bytes of the frame; that either may be run in every link state and `SENDBYTES` with a buffer of any
length is the model's choice (log 10). The form of the answers is its choice too (log 5), the wait and what a withheld
answer is under a timeout its reading (log 6). -/
def Obligations.DataExchangesComplete : Prop :=
  ∀ s : State, Memory.wf s.rxb = true →
    (∀ buf, ∃ (ok : Bool) (r : Radio),
      (∀ b q, s.radio.sendbytes = b :: q → ok = b ∧ r = { s.radio with sendbytes := q }) ∧
      (s.radio.sendbytes = [] → r = { s.radio with count := s.radio.count + 1 }) ∧
      exec (.sendbytes buf) s =
        .next { s with trace := s.trace ++ [.portCall (.sendbytes buf) (.bool ok)], radio := r,
                       status := if ok then .ok else .sendError }) ∧
    (∀ tmoEn tmo,
      (∀ l, s.radio.recvbytesDraw = .bytes l →
        ∃ t, exec (.recvbytes tmoEn tmo) s = .next t ∧
          t = { s with trace := s.trace ++ [.portCall (.recvbytes tmoEn tmo) (.bytes l)],
                       radio := s.radio.afterRecvbytes, rxb := t.rxb,
                       rxlen := BitVec.ofNat 8 (min l.length 255), status := .ok, rxWait := false } ∧
          t.rxb.readBytes 0 (min l.length s.params.rxCap) = l.take s.params.rxCap ∧
          ∀ i, min l.length s.params.rxCap ≤ i → t.rxb.read i = s.rxb.read i) ∧
      (s.radio.recvbytesDraw = .nothing ∨ (s.radio.recvbytesDraw = .withheld ∧ tmoEn = true) →
        exec (.recvbytes tmoEn tmo) s =
          .next { s with trace := s.trace ++ [.portCall (.recvbytes tmoEn tmo) .nothing],
                         radio := s.radio.afterRecvbytes, rxlen := 0, status := .receiveError,
                         rxWait := false }) ∧
      (s.radio.recvbytesDraw = .withheld → tmoEn = false →
        exec (.recvbytes tmoEn tmo) s =
          .next { s with radio := s.radio.afterRecvbytes, rxWait := true }))

/-- The end of a `RECV` that waits (41_link_layer.md R202, R203, 42_radio_port.md R228): the step runs the exchange
again with the timeout registers, and the answer decides. A delivered byte sequence is stored and ends the command
with `OK`, the answer nothing ends it with `RECEIVE_ERROR`, and in both cases exactly one event is recorded and the
block is idle again; an answer still withheld leaves everything but the peripheral. The wait is the model's reading
(log 6), the form of the answers its choice (log 5). -/
def Obligations.WaitingRecvEndsWithItsAnswer : Prop :=
  ∀ s : State, Inv s → s.resetReq = false → s.rxWait = true →
    step s = exec (.recvbytes false s.rxTmo) s ∧
    (∀ l, s.radio.recvbytesDraw = .bytes l →
      ∃ t, step s = .next t ∧ t.idle = true ∧
        t = { s with trace := s.trace ++ [.portCall (.recvbytes false s.rxTmo) (.bytes l)],
                     radio := s.radio.afterRecvbytes, rxb := t.rxb,
                     rxlen := BitVec.ofNat 8 (min l.length 255), status := .ok, rxWait := false } ∧
        t.rxb.readBytes 0 (min l.length s.params.rxCap) = l.take s.params.rxCap ∧
        ∀ i, min l.length s.params.rxCap ≤ i → t.rxb.read i = s.rxb.read i) ∧
    (s.radio.recvbytesDraw = .nothing →
      ∃ t, step s = .next t ∧ t.idle = true ∧
        t = { s with trace := s.trace ++ [.portCall (.recvbytes false s.rxTmo) .nothing],
                     radio := s.radio.afterRecvbytes, rxlen := 0, status := .receiveError,
                     rxWait := false }) ∧
    (s.radio.recvbytesDraw = .withheld →
      step s = .next { s with radio := s.radio.afterRecvbytes })

/-- 41_link_layer.md R205 and R206: from `Faulted`, without a reset, `n` steps are `n` blink steps: the indicator
has been inverted `n` times, the trace has grown by `n` toggle and delay pairs, and nothing else has changed, the
host's queue among it. The queue (log 7) and the reset line (log 8) are the model's choices. -/
def Obligations.FaultedBlinksForEver : Prop :=
  ∀ (n : Nat) (s : State), s.resetReq = false → s.lstate = .faulted → s.istep = 0 →
    steps n s =
      .next { s with ind := if n % 2 = 0 then s.ind else !s.ind,
                     trace := s.trace ++ blinkEvents n (!s.ind) }

/-- Without a reset, no number of steps leaves `Ready` (41_link_layer.md R207), and the latched configuration stays
(10_state.md R56). That none of these steps stops rests on the model too: with the host's queue empty a step changes
nothing (its choice, log 7), and a `RECV` that waits for its answer keeps stepping (its reading, log 6). The reset
line is its choice (log 8). -/
def Obligations.ReadyIsNeverLeft : Prop :=
  ∀ (n : Nat) (s : State), s.resetReq = false → s.lstate = .ready →
    ∃ t, steps n s = .next t ∧ t.lstate = .ready ∧ t.resetReq = false ∧
      t.lcfg = s.lcfg

/-- 41_link_layer.md R182: every change of `LSTATE` is a row of the transition table, under the row's condition.
The form of the peripheral's answers is the model's choice (log 5), as are the reset line (log 8) and the host's
queue (log 7). -/
def Obligations.LinkStateFollowsTheTable : Prop :=
  ∀ s t : State, step s = .next t →
    (s.resetReq = true → t.lstate = .uninitialized) ∧
    (s.resetReq = false → t.lstate ≠ s.lstate →
      (s.lstate = .uninitialized ∧ t.lstate = .resetting ∧ cfgIllegal s.cfg = false ∧
        ∃ v rest, s.host = .write 0x00 v :: rest ∧ tc 8 v = 0x10) ∨
      (s.lstate = .resetting ∧ t.lstate = .initializing ∧ s.istep = 1) ∨
      (s.lstate = .initializing ∧ t.lstate = .faulted ∧ s.istep = 0 ∧ s.radio.bringupAnswer = false) ∨
      (s.lstate = .initializing ∧ t.lstate = .faulted ∧ s.istep = 1 ∧ s.radio.setfreqAnswer = false) ∨
      (s.lstate = .initializing ∧ t.lstate = .ready ∧ s.istep = 4))

/-- 60_exceptions.md R250: the codes a command can leave in `STATUS` are `OK` and those of its row; an accepted
`INIT` and a `RECV` still waiting for its answer (log 6) have not written it yet. -/
def Obligations.CommandsRaiseOnlyTheirExceptions : Prop :=
  ∀ s t : State,
    (exec .encAbs s = .next t ∨ exec .encRel s = .next t → t.status ∈ [Status.ok, .encRange]) ∧
    (exec .decAbs s = .next t → t.status ∈ [Status.ok, .badLength]) ∧
    (exec .decRel s = .next t → t.status ∈ [Status.ok, .badLength, .badMagic]) ∧
    (exec .init s = .next t → t.status ∈ [Status.wrongState, .cfgInvalid] ∨
      (t.status = s.status ∧ t.lstate = .resetting)) ∧
    (exec .send s = .next t → t.status ∈ [Status.ok, .wrongState, .sendError]) ∧
    (exec .recv s = .next t → t.status ∈ [Status.ok, .wrongState, .receiveError] ∨
      (t.status = s.status ∧ t.rxWait = true)) ∧
    (∀ b, exec (.illegal b) s = .next t → t.status = .illegalCmd)

/-! ## The host and the machine -/

/-- Issuing a command (20_memory.md R102, 30_encoding.md R110): with the block idle, a write of a command byte to
`CMD`, whatever stands above its low eight bits, makes the step run exactly the instruction the byte encodes, with
the access taken from the host's queue. The queue is the model's choice (log 7). -/
def Obligations.StepRunsTheIssuedCommand : Prop :=
  ∀ (s : State) (i : Instr) (b : Byte) (v : Int) (rest : List HostOp), s.resetReq = false → s.idle = true →
    i.wf = true → encode s.params.byteOrder i = .cmd b → tc 8 v = b.toNat →
    s.host = .write 0x00 v :: rest →
    step s = exec i { s with host := rest }

/-- Presenting a frame (30_encoding.md R131; the form of the access is the model's choice, log 13): with the block
idle, `LOADRX` of the bytes of a frame makes the step run that frame's row, and `LOADRX` of any other bytes puts
the first `RX_CAP` of them in `RXB` and the low eight bits of their number in `RXLEN`. For more than `RX_CAP` bytes
R131 gives no expansion, and for more than 192 the map gives the later bytes no number: what happens there, bytes
beyond `RX_CAP` lost and `RXB[192]` on written, is the model's choice (log 22), and so is the host's queue
(log 7). -/
def Obligations.StepPresentsFrames : Prop :=
  ∀ (s : State) (bytes : List Byte) (rest : List HostOp), s.resetReq = false → s.idle = true →
    s.host = .loadRx bytes :: rest →
    (∀ i, i.wf = true → encode s.params.byteOrder i = .frame bytes → step s = exec i { s with host := rest }) ∧
    ((∀ i, encode s.params.byteOrder i ≠ .frame bytes) →
      step s =
        .next { s with host := rest, rxb := s.rxb.writeBytes 0 (bytes.take s.params.rxCap),
                       rxlen := BitVec.ofNat 8 bytes.length })

/-- A reserved byte written to `CMD` with the block idle raises `IllegalCmd`: `STATUS` takes `ILLEGAL_CMD` and
nothing else changes (30_encoding.md R113, 60_exceptions.md R249) but the host's queue, from which the step takes the
write. The queue is the model's choice (log 7). -/
def Obligations.ReservedCommandBytesAreIllegal : Prop :=
  ∀ (s : State) (b : Byte) (rest : List HostOp), s.resetReq = false → s.idle = true →
    b ∉ [0x01#8, 0x02#8, 0x03#8, 0x04#8, 0x10#8, 0x11#8, 0x12#8] → s.host = .write 0x00 b.toNat :: rest →
    step s = exec (.illegal b) { s with host := rest } ∧
    exec (.illegal b) { s with host := rest } = .next { s with host := rest, status := .illegalCmd }

/-- 20_memory.md R100 with the map of 10_state.md R62: after a host write to number `n` a writable, unlocked
register reads the low bits of the value; every other number reads as before; and what the map does not show (the
pc's step, the latched configuration, the lines, the trace, the bytes of `RXB` from 192 on, which have no number, log
22, the parameters and the other agents) is as before, but for the host's queue (log 7), from which the write is
taken. -/
def Obligations.HostWriteChangesOneRegister : Prop :=
  ∀ (s : State) (n : BitVec 8) (v : Int) (rest : List HostOp), s.resetReq = false → s.idle = true →
    Memory.wf s.rxb = true → n ≠ 0 → s.host = .write n v :: rest →
    ∃ t, step s = .next t ∧
      (∀ m : BitVec 8, t.hostRead m =
        match regOf s.params.rxCap n with
        | some r =>
          if m = n ∧ regWritable r = true ∧ (regIsCfg r = true → s.cfglock = false) then
            tc (regWidth s.params r) v
          else s.hostRead m
        | none => s.hostRead m) ∧
      (t.istep, t.lcfg, t.rstLine, t.ind, t.trace, t.rxWait, t.radio, t.params, t.hostReads, t.host,
          t.resetReq, t.txb) =
        (s.istep, s.lcfg, s.rstLine, s.ind, s.trace, s.rxWait, s.radio, s.params, s.hostReads, rest,
          s.resetReq, s.txb) ∧
      ∀ i, 192 ≤ i → t.rxb.read i = s.rxb.read i

/-- 20_memory.md R101 and R86: a host read returns the register's value, 0 for `CMD` and for a reserved number,
and changes nothing: the step takes the access from the host's queue, hands the value over, and every other part of
the state is as before; a second read returns the same value and again changes nothing. The queue and the list of
values read stand for the host (log 7). -/
def Obligations.HostReadHasNoSideEffect : Prop :=
  ∀ (s : State) (n : BitVec 8) (rest : List HostOp), s.resetReq = false → s.idle = true →
    s.host = .read n :: rest →
    ∃ (v : Nat) (t : State),
      step s = .next t ∧ t = { s with host := rest, hostReads := s.hostReads ++ [v] } ∧
      (∀ r, regOf s.params.rxCap n = some r → v = s.getReg r) ∧
      (n = 0 ∨ regOf s.params.rxCap n = none → v = 0) ∧
      ∀ rest', rest = .read n :: rest' →
        step t = .next { s with host := rest', hostReads := s.hostReads ++ [v, v] }

/-- 10_state.md R63: without a reset, a step takes one access from the host's queue when the block is idle, and
none while a command runs or in `Faulted`; then the host has read nothing either. The queue stands for the host agent
(log 7). -/
def Obligations.HostIsBlockedWhileTheBlockIsBusy : Prop :=
  ∀ s t : State, s.resetReq = false → step s = .next t →
    (s.idle = true → t.host = s.host.tail) ∧
    (s.idle = false → t.host = s.host ∧ t.hostReads = s.hostReads)

/-- The expansion of `LOADRX` (30_encoding.md R131): its writes, run one a step, give the state that the single
`LOADRX` access gives, for the byte sequences R131 expands and the map numbers: at most `RX_CAP` bytes and at most
192 (log 22). That `LOADRX` is also one access is the model's choice (log 13). -/
def Obligations.LoadRxIsItsExpansion : Prop :=
  ∀ (s : State) (bytes : List Byte) (rest : List HostOp), s.resetReq = false → s.idle = true →
    bytes.length ≤ s.params.rxCap → bytes.length ≤ 192 →
    steps (bytes.length + 1) { s with host := loadRxScript bytes ++ rest } =
      step { s with host := .loadRx bytes :: rest }

/-- Who writes what (10_state.md R41 to R46, R48, R56; 20_memory.md R85): no instruction writes the operand
registers, the `CFG_*` registers, the timeout registers or the parameters; only a decode that ends with `OK`
writes the result registers; only the encoders write `TXB` and `TXLEN`; only a receive and a presented frame write
`RXB` and `RXLEN`; only `INIT` writes `LCFG` and `CFGLOCK`. -/
def Obligations.InstructionsWriteOnlyTheirRegisters : Prop :=
  ∀ (i : Instr) (s t : State), exec i s = .next t →
    (t.params, t.ilat, t.ilon, t.iage, t.ihasfix, t.cfg, t.rxTmoEn, t.rxTmo, t.host, t.hostReads, t.resetReq) =
      (s.params, s.ilat, s.ilon, s.iage, s.ihasfix, s.cfg, s.rxTmoEn, s.rxTmo, s.host, s.hostReads,
        s.resetReq) ∧
    ((i = .decAbs ∨ i = .decRel) ∧ t.status = .ok ∨
      (t.olat, t.olon, t.oage) = (s.olat, s.olon, s.oage)) ∧
    (i = .encAbs ∨ i = .encRel ∨ (t.txb, t.txlen) = (s.txb, s.txlen)) ∧
    (i = .recv ∨ (∃ e m, i = .recvbytes e m) ∨ i.format = .abs ∨ i.format = .rel ∨
      (t.rxb, t.rxlen) = (s.rxb, s.rxlen)) ∧
    (i = .init ∨ (t.lcfg, t.cfglock) = (s.lcfg, s.cfglock))

/-- Once an `INIT` has been accepted the configuration, its latched copy and the lock stay until a reset
(10_state.md R56). -/
def Obligations.LockedConfigurationStays : Prop :=
  ∀ s t : State, Inv s → s.cfglock = true → s.resetReq = false → step s = .next t →
    t.cfg = s.cfg ∧ t.lcfg = s.lcfg ∧ t.cfglock = true

/-- `TRACE` is append-only (10_state.md R58): without a reset a step only adds events at its end, and no step
changes the parameters. -/
def Obligations.TraceOnlyGrows : Prop :=
  ∀ s t : State, step s = .next t →
    t.params = s.params ∧ (s.resetReq = false → ∃ l, t.trace = s.trace ++ l)

/-- What the block issues (42_radio_port.md R225, R226, R227): every `SETPROMISC` carries 0, every `SETTXPOWER` a
power of 5 to 23 and the parameter `USE_BOOST_PIN`, every `SENDBYTES` a buffer of 0, 7 or 9 bytes; and every
instruction a step runs is well-formed. -/
def Obligations.IssuedPortOperationsAreLegal : Prop :=
  ∀ s t : State, Inv s → step s = .next t →
    (∀ i u, s.turn = .run i u → i.wf = true) ∧
    (∀ e, e ∈ t.trace.drop s.trace.length →
      (∀ on a, e = .portCall (.setpromisc on) a → on = false) ∧
      (∀ dbm boost a, e = .portCall (.settxpower dbm boost) a →
        5 ≤ sext 8 dbm.toNat ∧ sext 8 dbm.toNat ≤ 23 ∧ boost = s.params.useBoostPin) ∧
      (∀ buf a, e = .portCall (.sendbytes buf) a → buf.length = 0 ∨ buf.length = 7 ∨ buf.length = 9))

/-! ## Reset and invariants -/

/-- What reset leaves, for the state the spec gives a value (10_state.md R64), from every state
(70_reset_and_hazards.md R281); the peripheral keeps its own (R282). The reset line as an input of the state is the
model's (log 8). -/
def Obligations.ResetLeavesTheGivenValues : Prop :=
  ∀ s : State, s.resetReq = true →
    ∃ t, step s = .next t ∧
      t.lstate = .uninitialized ∧ t.istep = 0 ∧ t.fcause = none ∧ t.status = .ok ∧ t.cfglock = false ∧
      t.txlen = 0 ∧ t.rxlen = 0 ∧ t.rstLine = true ∧ t.ind = false ∧ t.trace = [] ∧ t.idle = true ∧
      t.params = s.params ∧ t.radio = s.radio ∧ t.resetReq = false

/-- The invariant holds at reset (10_state.md R46 to R48, R52 to R56, R59 to R61, R64). Its clauses on the form of
the buffers and on the wait are the model's (log 3, log 6). -/
def Obligations.InvariantHoldsAtReset : Prop := Inv State.reset

/-- Every step keeps the invariant, from every state that has it: the register widths, the canonical buffers, the
values of `TXLEN` and of the pc, and what `Faulted`, the lock, the wait and the two lines say of each other. The
clauses on the form of the buffers and on the wait are the model's (log 3, log 6). -/
def Obligations.StepKeepsTheInvariant : Prop :=
  ∀ s t : State, Inv s → step s = .next t → Inv t

/-- No step stops, for any number of steps, from any state that has the invariant: the pc takes only the values of
10_state.md R61, a returned exception gives control back (60_exceptions.md R240), and a fatal one blinks for ever
(41_link_layer.md R205). Part of this is the model's: with the host's queue empty and the block idle, where
00_scope.md R35 says a run ends, a step changes nothing (its choice, log 7); a `RECV` without a timeout and without an
answer, which the spec calls stuck (93_implementation_defined.md U9), keeps stepping in the wait (its reading, log 6);
and the one fault there is stands at the pc values R61 excludes (its reading, log 15). -/
def Obligations.NothingStopsTheMachine : Prop :=
  ∀ (n : Nat) (s : State), Inv s → SafeFor n s

/-- The order of the events holds at reset: `TRACE` is empty (10_state.md R58, R64, 42_radio_port.md R230). -/
def Obligations.TraceOrderHoldsAtReset : Prop := TraceOrder State.reset

/-- 42_radio_port.md R230: every step keeps the order of the port events: the reset pulse, `BRINGUP`, `SETFREQ`,
`SETADDR`, `SETPROMISC`, `SETTXPOWER` if configured, then data exchanges only; or blink events only, after a false
answer. -/
def Obligations.StepKeepsTheTraceOrder : Prop :=
  ∀ s t : State, Inv s → TraceOrder s → step s = .next t → TraceOrder t

/-- There is no retry (41_link_layer.md R198): from a state with the invariant and an ordered trace, a step gives a
trace that holds at most one `BRINGUP` and at most one `SETFREQ`. -/
def Obligations.BringupAndSetfreqAreIssuedOnce : Prop :=
  ∀ s t : State, Inv s → TraceOrder s → step s = .next t →
    t.trace.countP isBringup ≤ 1 ∧ t.trace.countP isSetfreq ≤ 1
end

