-- ==== Sys2Proof/Laws/Memory.lean ====
section
/-! SUPPORT. The laws of the frame buffers: a read after a write, the canonical form, and byte sequences. -/

namespace Sys2Proof.Machine

/-- What the canonical form says of a first cell. -/
theorem wfFrom_cons (lo k : Nat) (b : Byte) (m : Memory) :
    Memory.wfFrom lo ((k, b) :: m) = true ↔
      (lo ≤ k ∧ b ≠ Memory.unlisted) ∧ Memory.wfFrom (k + 1) m = true := by
  simp [Memory.wfFrom]

/-- A smaller bound is a weaker condition. -/
theorem wfFrom_mono {m : Memory} {lo lo' : Nat} (h : Memory.wfFrom lo m = true) (hl : lo' ≤ lo) :
    Memory.wfFrom lo' m = true := by
  cases m with
  | nil => rfl
  | cons c m =>
    obtain ⟨k, b⟩ := c
    rw [wfFrom_cons] at h ⊢
    exact ⟨⟨by omega, h.1.2⟩, h.2⟩

/-- Below its first cell a canonical buffer reads as unlisted. -/
theorem read_of_wfFrom {m : Memory} {lo i : Nat} (h : Memory.wfFrom lo m = true) (hi : i < lo) :
    m.read i = Memory.unlisted := by
  induction m generalizing lo with
  | nil => rfl
  | cons c m ih =>
    obtain ⟨k, b⟩ := c
    rw [wfFrom_cons] at h
    rw [Memory.read, if_neg (by omega)]
    exact ih h.2 (by omega)

/-- Writing keeps the canonical form. -/
theorem wfFrom_write {m : Memory} {lo i : Nat} (b : Byte) (h : Memory.wfFrom lo m = true) (hi : lo ≤ i) :
    Memory.wfFrom lo (m.write i b) = true := by
  induction m generalizing lo with
  | nil =>
    rw [Memory.write]
    split_ifs with hb
    · rfl
    · exact (wfFrom_cons ..).2 ⟨⟨hi, hb⟩, rfl⟩
  | cons c m ih =>
    obtain ⟨k, v⟩ := c
    have h' := (wfFrom_cons ..).1 h
    rw [Memory.write]
    split_ifs with h1 h2 h3 h4
    · exact h
    · exact (wfFrom_cons ..).2 ⟨⟨hi, h2⟩, (wfFrom_cons ..).2 ⟨⟨by omega, h'.1.2⟩, h'.2⟩⟩
    · exact wfFrom_mono h'.2 (by omega)
    · exact (wfFrom_cons ..).2 ⟨⟨hi, h4⟩, h3 ▸ h'.2⟩
    · exact (wfFrom_cons ..).2 ⟨h'.1, ih h'.2 (by omega)⟩

/-- A byte reads as last written, and every other byte as before. -/
theorem read_write {m : Memory} {lo : Nat} (i j : Nat) (b : Byte) (h : Memory.wfFrom lo m = true) :
    (m.write i b).read j = if j = i then b else m.read j := by
  induction m generalizing lo with
  | nil =>
    rw [Memory.write]
    by_cases hb : b = Memory.unlisted
    · rw [if_pos hb, hb]; exact (ite_self _).symm
    · rw [if_neg hb]; simp only [Memory.read, eq_comm]
  | cons c m ih =>
    obtain ⟨k, v⟩ := c
    have h' := (wfFrom_cons ..).1 h
    rw [Memory.write]
    split_ifs with h1 h2 h3 h4 h5 h6 h7 h8 h9
    · subst h3; rw [h2, Memory.read, if_neg (by omega)]; exact read_of_wfFrom h'.2 (by omega)
    · rfl
    · subst h4; simp [Memory.read]
    · rw [Memory.read, if_neg (by omega)]
    · subst h7; rw [h6]; exact read_of_wfFrom h'.2 (by omega)
    · rw [Memory.read, if_neg (by omega)]
    · subst h8; simp [Memory.read]
    · rw [Memory.read, Memory.read, if_neg (by omega), if_neg (by omega)]
    · subst h9; rw [Memory.read, if_neg (by omega), ih h'.2, if_pos rfl]
    · rw [Memory.read, Memory.read, ih h'.2, if_neg h9]

/-- A buffer of `n` bytes stays one when an index below `n` is written. -/
theorem below_write {m : Memory} {n i : Nat} (b : Byte) (h : Memory.below n m = true) (hi : i < n) :
    Memory.below n (m.write i b) = true := by
  induction m with
  | nil =>
    rw [Memory.write]
    split_ifs <;> simp [Memory.below, hi]
  | cons c m ih =>
    obtain ⟨k, v⟩ := c
    simp only [Memory.below, List.all_cons, Bool.and_eq_true, decide_eq_true_eq] at h ih
    rw [Memory.write]
    split_ifs <;> simp only [Memory.below, List.all_cons, Bool.and_eq_true, decide_eq_true_eq]
    · exact h
    · exact ⟨hi, h⟩
    · exact h.2
    · exact ⟨hi, h.2⟩
    · exact ⟨h.1, ih h.2⟩

@[simp] theorem length_readBytes (m : Memory) (i n : Nat) : (m.readBytes i n).length = n := by
  induction n generalizing i with
  | zero => rfl
  | succ n ih => simp [Memory.readBytes, ih]

/-- The `k`-th byte that `MemRead(B, i, n)` gives is byte `i + k`. -/
theorem getElem_readBytes (m : Memory) (i n k : Nat) (h : k < (m.readBytes i n).length) :
    (m.readBytes i n)[k] = m.read (i + k) := by
  induction n generalizing i k with
  | zero => simp [Memory.readBytes] at h
  | succ n ih =>
    cases k with
    | zero => rfl
    | succ k => simp only [Memory.readBytes, List.getElem_cons_succ, ih]; congr 1; omega

/-- Writing a byte sequence keeps the canonical form. -/
theorem wf_writeBytes {m : Memory} (i : Nat) (bs : List Byte) (h : Memory.wf m = true) :
    Memory.wf (m.writeBytes i bs) = true := by
  induction bs generalizing i m with
  | nil => exact h
  | cons b bs ih => exact ih (i + 1) (wfFrom_write b h (Nat.zero_le i))

/-- A buffer of `n` bytes stays one when bytes within it are written. -/
theorem below_writeBytes {m : Memory} {n : Nat} (i : Nat) (bs : List Byte) (h : Memory.below n m = true)
    (hi : i + bs.length ≤ n) : Memory.below n (m.writeBytes i bs) = true := by
  induction bs generalizing i m with
  | nil => exact h
  | cons b bs ih =>
    simp only [List.length_cons] at hi
    exact ih (i + 1) (below_write b h (by omega)) (by omega)

/-- What a byte reads as after `MemWrite(B, i, n, bytes)`. -/
theorem read_writeBytes {m : Memory} (i j : Nat) (bs : List Byte) (h : Memory.wf m = true) :
    (m.writeBytes i bs).read j =
      if hj : i ≤ j ∧ j < i + bs.length then bs[j - i]'(by omega) else m.read j := by
  induction bs generalizing i m with
  | nil => rw [dif_neg (by simp)]; rfl
  | cons b bs ih =>
    rw [Memory.writeBytes, ih (i + 1) (wfFrom_write b h (Nat.zero_le i)), read_write i j b h]
    by_cases hj : i + 1 ≤ j ∧ j < i + 1 + bs.length
    · rw [dif_pos hj, dif_pos ⟨by omega, by simp only [List.length_cons]; omega⟩]
      rw [List.getElem_cons, dif_neg (by omega)]
      congr 1
    · rw [dif_neg hj]
      by_cases hji : j = i
      · subst hji; rw [if_pos rfl, dif_pos ⟨le_rfl, by simp⟩]; simp
      · rw [if_neg hji, dif_neg (by simp only [List.length_cons]; omega)]

/-- The bytes written are the bytes read back. -/
theorem readBytes_writeBytes {m : Memory} (i : Nat) (bs : List Byte) (h : Memory.wf m = true) :
    (m.writeBytes i bs).readBytes i bs.length = bs := by
  apply List.ext_getElem (by simp)
  intro k h1 h2
  rw [getElem_readBytes, read_writeBytes _ _ _ h, dif_pos ⟨by omega, by omega⟩]
  congr 1
  omega

/-- Bytes past the sequence written read as before. -/
theorem read_writeBytes_past {m : Memory} (i j : Nat) (bs : List Byte) (h : Memory.wf m = true)
    (hj : i + bs.length ≤ j) : (m.writeBytes i bs).read j = m.read j := by
  rw [read_writeBytes _ _ _ h, dif_neg (by omega)]

/-- Reading `a + b` bytes is reading `a` and then `b`. -/
theorem readBytes_add (m : Memory) (i a b : Nat) :
    m.readBytes i (a + b) = m.readBytes i a ++ m.readBytes (i + a) b := by
  induction a generalizing i with
  | zero => simp [Memory.readBytes]
  | succ a ih =>
    rw [Nat.succ_add, Memory.readBytes, Memory.readBytes, ih, List.cons_append]
    congr 3
    omega

/-- Two buffers with the same reads from `i` on give the same bytes. -/
theorem readBytes_congr {m m' : Memory} {i n : Nat} (h : ∀ j, i ≤ j → j < i + n → m.read j = m'.read j) :
    m.readBytes i n = m'.readBytes i n := by
  apply List.ext_getElem (by simp)
  intro k h1 h2
  simp only [length_readBytes] at h1
  rw [getElem_readBytes, getElem_readBytes]
  exact h _ (by omega) (by omega)

/-- The buffers of the machine right after reset are canonical. -/
theorem wf_reset : Memory.wf State.reset.txb = true ∧ Memory.wf State.reset.rxb = true := ⟨rfl, rfl⟩

end Sys2Proof.Machine
end

