-- ==== Sys2Proof/Laws/Numbers.lean ====
section
/-! SUPPORT. The laws of two's complement, of byte order, of rounding and of the age byte. -/

namespace Sys2Proof

theorem length_bytesLe (n p : Nat) : (bytesLe n p).length = n := by
  induction n generalizing p with
  | zero => rfl
  | succ n ih => simp [bytesLe, ih]

@[simp] theorem length_bytesN (bo : ByteOrder) (n p : Nat) : (bytesN bo n p).length = n := by
  cases bo <;> simp [bytesN, length_bytesLe]

@[simp] theorem length_absBytes (bo : ByteOrder) (lat lon : Nat) (age : Byte) :
    (absBytes bo lat lon age).length = 9 := by simp [absBytes]

@[simp] theorem length_relBytes (bo : ByteOrder) (dlat dlon : Nat) (age : Byte) :
    (relBytes bo dlat dlon age).length = 7 := by simp [relBytes]

theorem wordLe_bytesLe (n p : Nat) (h : p < 256 ^ n) : wordLe (bytesLe n p) = p := by
  induction n generalizing p with
  | zero => simp [bytesLe, wordLe] at h ⊢; omega
  | succ n ih =>
    rw [bytesLe, wordLe, ih _ (by rw [pow_succ] at h; omega)]
    simp only [BitVec.toNat_ofNat]
    omega

theorem bytesLe_wordLe (bs : List Byte) : bytesLe bs.length (wordLe bs) = bs := by
  induction bs with
  | nil => rfl
  | cons b bs ih =>
    have hb := b.isLt
    simp only [List.length_cons, bytesLe, wordLe]
    rw [show (b.toNat + 256 * wordLe bs) / 256 = wordLe bs by omega, ih]
    congr 1
    apply BitVec.eq_of_toNat_eq
    simp only [BitVec.toNat_ofNat]
    omega

theorem wordLe_lt (bs : List Byte) : wordLe bs < 256 ^ bs.length := by
  induction bs with
  | nil => simp [wordLe]
  | cons b bs ih =>
    have hb := b.isLt
    simp only [List.length_cons, wordLe, pow_succ]
    omega

theorem wordN_bytesN (bo : ByteOrder) (n p : Nat) (h : p < 256 ^ n) : wordN bo (bytesN bo n p) = p := by
  cases bo <;> simp [wordN, bytesN, wordLe_bytesLe n p h]

theorem bytesN_wordN (bo : ByteOrder) (bs : List Byte) : bytesN bo bs.length (wordN bo bs) = bs := by
  cases bo
  · exact bytesLe_wordLe bs
  · have h := bytesLe_wordLe bs.reverse
    rw [List.length_reverse] at h
    simp [wordN, bytesN, h]

theorem wordN_lt (bo : ByteOrder) (bs : List Byte) : wordN bo bs < 256 ^ bs.length := by
  cases bo
  · exact wordLe_lt bs
  · simpa [wordN] using wordLe_lt bs.reverse

namespace Machine

theorem tc_lt (n : Nat) (v : Int) : tc n v < 2 ^ n := by
  have hp : (0 : Int) < ((2 ^ n : Nat) : Int) := by positivity
  have h1 := Int.emod_nonneg v hp.ne'
  have h2 := Int.emod_lt_of_pos v hp
  unfold tc
  omega

/-- `tc_N(v)` as an integer is the non-negative remainder. -/
theorem tc_cast (n : Nat) (v : Int) : ((tc n v : Nat) : Int) = v % ((2 ^ n : Nat) : Int) := by
  have hp : (0 : Int) < ((2 ^ n : Nat) : Int) := by positivity
  have h1 := Int.emod_nonneg v hp.ne'
  unfold tc
  omega

/-- `tc_N` is the identity on patterns of `N` bits. -/
theorem tc_of_lt (n p : Nat) (h : p < 2 ^ n) : tc n (p : Int) = p := by
  have h1 := tc_cast n (p : Int)
  rw [Int.emod_eq_of_lt (by omega) (by exact_mod_cast h)] at h1
  exact_mod_cast h1

/-- The exact representation of an integer in range (00_scope.md R26). -/
theorem sext_tc (n : Nat) (v : Int) (hn : 1 ≤ n) (h1 : -((2 ^ (n - 1) : Nat) : Int) ≤ v)
    (h2 : v < ((2 ^ (n - 1) : Nat) : Int)) : sext n (tc n v) = v := by
  obtain ⟨k, rfl⟩ : ∃ k, n = k + 1 := ⟨n - 1, by omega⟩
  simp only [Nat.add_sub_cancel] at h1 h2
  have e : (2 ^ (k + 1) : Nat) = 2 * 2 ^ k := by ring
  have hc := tc_cast (k + 1) v
  generalize hP : (2 ^ k : Nat) = P at *
  rw [e] at hc
  unfold sext
  simp only [Nat.add_sub_cancel, hP, e]
  rcases Int.lt_or_le v 0 with hv | hv
  · rw [← Int.add_emod_right, Int.emod_eq_of_lt (by push_cast; omega) (by push_cast; omega)] at hc
    push_cast at hc ⊢
    split_ifs with hs <;> omega
  · rw [Int.emod_eq_of_lt hv (by push_cast; omega)] at hc
    push_cast at hc ⊢
    split_ifs with hs <;> omega

/-- `sext_N` lands in the signed range. -/
theorem sext_range (n p : Nat) (hn : 1 ≤ n) (h : p < 2 ^ n) :
    -((2 ^ (n - 1) : Nat) : Int) ≤ sext n p ∧ sext n p < ((2 ^ (n - 1) : Nat) : Int) := by
  obtain ⟨k, rfl⟩ : ∃ k, n = k + 1 := ⟨n - 1, by omega⟩
  have e : (2 ^ (k + 1) : Nat) = 2 * 2 ^ k := by ring
  rw [e] at h
  unfold sext
  simp only [Nat.add_sub_cancel, e]
  generalize (2 ^ k : Nat) = P at *
  split_ifs with hs <;> constructor <;> omega

/-- `tc_N` undoes `sext_N`. -/
theorem tc_sext (n p : Nat) (h : p < 2 ^ n) : tc n (sext n p) = p := by
  have hc := tc_cast n (sext n p)
  unfold sext at *
  split_ifs at * with hs
  · exact tc_of_lt n p h
  · rw [Int.sub_emod_right, Int.emod_eq_of_lt (by omega) (by exact_mod_cast h)] at hc
    exact_mod_cast hc

/-- Rounding is within half a unit, under both rules (00_scope.md R27). -/
theorem roundDiv_bound (m : RoundMode) (n : Int) (d : Nat) (hd : 0 < d) :
    2 * |roundDiv m n d * d - n| ≤ d := by
  cases m with
  | halfAwayFromZero =>
    have key : ∀ a : Nat, 2 * |((2 * a + d) / (2 * d) : Nat) * (d : Int) - a| ≤ d := by
      intro a
      have h1 := Nat.div_add_mod (2 * a + d) (2 * d)
      have h2 := Nat.mod_lt (2 * a + d) (show 0 < 2 * d by omega)
      generalize (2 * a + d) / (2 * d) = q at *
      generalize (2 * a + d) % (2 * d) = r at *
      have h3 : 2 * ((q : Int) * d) + r = 2 * a + d := by
        have : ((2 * d * q + r : Nat) : Int) = ((2 * a + d : Nat) : Int) := by rw [h1]
        push_cast at this
        linarith
      rw [← abs_two, ← abs_mul, abs_le]
      constructor <;> nlinarith
    simp only [roundDiv]
    rcases lt_trichotomy n 0 with hn | hn | hn
    · have := key n.natAbs
      rw [Int.sign_eq_neg_one_of_neg hn]
      have hna : ((n.natAbs : Nat) : Int) = -n := by omega
      rw [hna] at this
      rw [← abs_neg]
      convert this using 3
      ring
    · subst hn; simp
    · have := key n.natAbs
      rw [Int.sign_eq_one_of_pos hn]
      have hna : ((n.natAbs : Nat) : Int) = n := by omega
      rw [hna] at this
      simpa using this
  | halfToEven =>
    have h1 := Int.mul_ediv_add_emod n d
    have h2 := Int.emod_nonneg n (show (d : Int) ≠ 0 by omega)
    have h3 := Int.emod_lt_of_pos n (show (0 : Int) < d by omega)
    simp only [roundDiv]
    generalize n / (d : Int) = q at *
    generalize n % (d : Int) = r at *
    have h4 : n = q * d + r := by linarith [mul_comm (d : Int) q]
    subst h4
    split_ifs with c1 c2 c3
    · rw [show q * d - (q * d + r) = -r by ring, abs_neg, abs_of_nonneg h2]; omega
    · rw [show (q + 1) * d - (q * d + r) = d - r by ring, abs_of_nonneg (by omega)]; omega
    · rw [show q * d - (q * d + r) = -r by ring, abs_neg, abs_of_nonneg h2]; omega
    · rw [show (q + 1) * d - (q * d + r) = d - r by ring, abs_of_nonneg (by omega)]; omega

/-- A multiple of the unit rounds to itself (00_scope.md R27). -/
theorem roundDiv_mul (m : RoundMode) (k : Int) (d : Nat) (hd : 0 < d) : roundDiv m (k * d) d = k := by
  have h := roundDiv_bound m (k * d) d hd
  rw [← sub_mul, abs_mul, abs_of_nonneg (show (0 : Int) ≤ d by omega)] at h
  have h1 : |roundDiv m (k * d) d - k| < 1 := by nlinarith [abs_nonneg (roundDiv m (k * d) d - k)]
  have := Int.abs_lt_one_iff.1 h1
  omega

/-- The age byte as a number (40_payload_codec.md R152). -/
theorem age8_toNat (has : Bool) (a : Int) :
    (age8 has a).toNat = if has = false then 255 else if 255 ≤ a then 255 else if a < 0 then 0 else a.toNat := by
  unfold age8
  split_ifs <;> simp [Config.ageSentinel]
  omega

/-- A field whose bytes were written from an integer in range reads back as that integer (30_encoding.md R120,
R121). -/
theorem field_bytesN (p : Params) (n : Nat) (v : Int) (hn : 1 ≤ n)
    (h1 : -((2 ^ (8 * n - 1) : Nat) : Int) ≤ v) (h2 : v < ((2 ^ (8 * n - 1) : Nat) : Int)) :
    field p (bytesN p.byteOrder n (tc (8 * n) v)) = v := by
  unfold field
  rw [length_bytesN, wordN_bytesN, sext_tc _ _ (by omega) h1 h2]
  rw [show (256 : Nat) = 2 ^ 8 by norm_num, ← pow_mul]
  exact tc_lt _ _

/-- A field of `n` bytes lies in its signed range. -/
theorem field_range (p : Params) (bs : List Byte) (h : 1 ≤ bs.length) :
    -((2 ^ (8 * bs.length - 1) : Nat) : Int) ≤ field p bs ∧ field p bs < ((2 ^ (8 * bs.length - 1) : Nat) : Int) := by
  apply sext_range _ _ (by omega)
  have := wordN_lt p.byteOrder bs
  rwa [show (256 : Nat) = 2 ^ 8 by norm_num, ← pow_mul] at this

end Machine

end Sys2Proof
end

