-- ==== Sys2Proof/Laws/State.lean ====
section
/-! SUPPORT. One lemma for each field of State and each named update of Machine/Ops.lean: what the field holds
after it. All true by computation; they spare later proofs the record updates. -/

namespace Sys2Proof.Machine

section setStatus

variable (s : State) (c : Status)

@[simp] theorem setStatus_params : (s.setStatus c).params = s.params := rfl
@[simp] theorem setStatus_ilat : (s.setStatus c).ilat = s.ilat := rfl
@[simp] theorem setStatus_ilon : (s.setStatus c).ilon = s.ilon := rfl
@[simp] theorem setStatus_iage : (s.setStatus c).iage = s.iage := rfl
@[simp] theorem setStatus_ihasfix : (s.setStatus c).ihasfix = s.ihasfix := rfl
@[simp] theorem setStatus_olat : (s.setStatus c).olat = s.olat := rfl
@[simp] theorem setStatus_olon : (s.setStatus c).olon = s.olon := rfl
@[simp] theorem setStatus_oage : (s.setStatus c).oage = s.oage := rfl
@[simp] theorem setStatus_txb : (s.setStatus c).txb = s.txb := rfl
@[simp] theorem setStatus_txlen : (s.setStatus c).txlen = s.txlen := rfl
@[simp] theorem setStatus_rxb : (s.setStatus c).rxb = s.rxb := rfl
@[simp] theorem setStatus_rxlen : (s.setStatus c).rxlen = s.rxlen := rfl
@[simp] theorem setStatus_status : (s.setStatus c).status = c := rfl
@[simp] theorem setStatus_lstate : (s.setStatus c).lstate = s.lstate := rfl
@[simp] theorem setStatus_istep : (s.setStatus c).istep = s.istep := rfl
@[simp] theorem setStatus_fcause : (s.setStatus c).fcause = s.fcause := rfl
@[simp] theorem setStatus_cfg : (s.setStatus c).cfg = s.cfg := rfl
@[simp] theorem setStatus_lcfg : (s.setStatus c).lcfg = s.lcfg := rfl
@[simp] theorem setStatus_cfglock : (s.setStatus c).cfglock = s.cfglock := rfl
@[simp] theorem setStatus_rxTmoEn : (s.setStatus c).rxTmoEn = s.rxTmoEn := rfl
@[simp] theorem setStatus_rxTmo : (s.setStatus c).rxTmo = s.rxTmo := rfl
@[simp] theorem setStatus_rstLine : (s.setStatus c).rstLine = s.rstLine := rfl
@[simp] theorem setStatus_ind : (s.setStatus c).ind = s.ind := rfl
@[simp] theorem setStatus_trace : (s.setStatus c).trace = s.trace := rfl
@[simp] theorem setStatus_rxWait : (s.setStatus c).rxWait = s.rxWait := rfl
@[simp] theorem setStatus_host : (s.setStatus c).host = s.host := rfl
@[simp] theorem setStatus_hostReads : (s.setStatus c).hostReads = s.hostReads := rfl
@[simp] theorem setStatus_radio : (s.setStatus c).radio = s.radio := rfl
@[simp] theorem setStatus_resetReq : (s.setStatus c).resetReq = s.resetReq := rfl

end setStatus

section emit

variable (s : State) (es : List Event)

@[simp] theorem emit_params : (s.emit es).params = s.params := rfl
@[simp] theorem emit_ilat : (s.emit es).ilat = s.ilat := rfl
@[simp] theorem emit_ilon : (s.emit es).ilon = s.ilon := rfl
@[simp] theorem emit_iage : (s.emit es).iage = s.iage := rfl
@[simp] theorem emit_ihasfix : (s.emit es).ihasfix = s.ihasfix := rfl
@[simp] theorem emit_olat : (s.emit es).olat = s.olat := rfl
@[simp] theorem emit_olon : (s.emit es).olon = s.olon := rfl
@[simp] theorem emit_oage : (s.emit es).oage = s.oage := rfl
@[simp] theorem emit_txb : (s.emit es).txb = s.txb := rfl
@[simp] theorem emit_txlen : (s.emit es).txlen = s.txlen := rfl
@[simp] theorem emit_rxb : (s.emit es).rxb = s.rxb := rfl
@[simp] theorem emit_rxlen : (s.emit es).rxlen = s.rxlen := rfl
@[simp] theorem emit_status : (s.emit es).status = s.status := rfl
@[simp] theorem emit_lstate : (s.emit es).lstate = s.lstate := rfl
@[simp] theorem emit_istep : (s.emit es).istep = s.istep := rfl
@[simp] theorem emit_fcause : (s.emit es).fcause = s.fcause := rfl
@[simp] theorem emit_cfg : (s.emit es).cfg = s.cfg := rfl
@[simp] theorem emit_lcfg : (s.emit es).lcfg = s.lcfg := rfl
@[simp] theorem emit_cfglock : (s.emit es).cfglock = s.cfglock := rfl
@[simp] theorem emit_rxTmoEn : (s.emit es).rxTmoEn = s.rxTmoEn := rfl
@[simp] theorem emit_rxTmo : (s.emit es).rxTmo = s.rxTmo := rfl
@[simp] theorem emit_rstLine : (s.emit es).rstLine = s.rstLine := rfl
@[simp] theorem emit_ind : (s.emit es).ind = s.ind := rfl
@[simp] theorem emit_trace : (s.emit es).trace = s.trace ++ es := rfl
@[simp] theorem emit_rxWait : (s.emit es).rxWait = s.rxWait := rfl
@[simp] theorem emit_host : (s.emit es).host = s.host := rfl
@[simp] theorem emit_hostReads : (s.emit es).hostReads = s.hostReads := rfl
@[simp] theorem emit_radio : (s.emit es).radio = s.radio := rfl
@[simp] theorem emit_resetReq : (s.emit es).resetReq = s.resetReq := rfl

end emit

section setPc

variable (s : State) (l : LState) (k : BitVec 3)

@[simp] theorem setPc_params : (s.setPc l k).params = s.params := rfl
@[simp] theorem setPc_ilat : (s.setPc l k).ilat = s.ilat := rfl
@[simp] theorem setPc_ilon : (s.setPc l k).ilon = s.ilon := rfl
@[simp] theorem setPc_iage : (s.setPc l k).iage = s.iage := rfl
@[simp] theorem setPc_ihasfix : (s.setPc l k).ihasfix = s.ihasfix := rfl
@[simp] theorem setPc_olat : (s.setPc l k).olat = s.olat := rfl
@[simp] theorem setPc_olon : (s.setPc l k).olon = s.olon := rfl
@[simp] theorem setPc_oage : (s.setPc l k).oage = s.oage := rfl
@[simp] theorem setPc_txb : (s.setPc l k).txb = s.txb := rfl
@[simp] theorem setPc_txlen : (s.setPc l k).txlen = s.txlen := rfl
@[simp] theorem setPc_rxb : (s.setPc l k).rxb = s.rxb := rfl
@[simp] theorem setPc_rxlen : (s.setPc l k).rxlen = s.rxlen := rfl
@[simp] theorem setPc_status : (s.setPc l k).status = s.status := rfl
@[simp] theorem setPc_lstate : (s.setPc l k).lstate = l := rfl
@[simp] theorem setPc_istep : (s.setPc l k).istep = k := rfl
@[simp] theorem setPc_fcause : (s.setPc l k).fcause = s.fcause := rfl
@[simp] theorem setPc_cfg : (s.setPc l k).cfg = s.cfg := rfl
@[simp] theorem setPc_lcfg : (s.setPc l k).lcfg = s.lcfg := rfl
@[simp] theorem setPc_cfglock : (s.setPc l k).cfglock = s.cfglock := rfl
@[simp] theorem setPc_rxTmoEn : (s.setPc l k).rxTmoEn = s.rxTmoEn := rfl
@[simp] theorem setPc_rxTmo : (s.setPc l k).rxTmo = s.rxTmo := rfl
@[simp] theorem setPc_rstLine : (s.setPc l k).rstLine = s.rstLine := rfl
@[simp] theorem setPc_ind : (s.setPc l k).ind = s.ind := rfl
@[simp] theorem setPc_trace : (s.setPc l k).trace = s.trace := rfl
@[simp] theorem setPc_rxWait : (s.setPc l k).rxWait = s.rxWait := rfl
@[simp] theorem setPc_host : (s.setPc l k).host = s.host := rfl
@[simp] theorem setPc_hostReads : (s.setPc l k).hostReads = s.hostReads := rfl
@[simp] theorem setPc_radio : (s.setPc l k).radio = s.radio := rfl
@[simp] theorem setPc_resetReq : (s.setPc l k).resetReq = s.resetReq := rfl

end setPc

section exchange

variable (s : State) (op : Instr) (a : Answer) (r : Radio)

@[simp] theorem exchange_params : (s.exchange op a r).params = s.params := rfl
@[simp] theorem exchange_ilat : (s.exchange op a r).ilat = s.ilat := rfl
@[simp] theorem exchange_ilon : (s.exchange op a r).ilon = s.ilon := rfl
@[simp] theorem exchange_iage : (s.exchange op a r).iage = s.iage := rfl
@[simp] theorem exchange_ihasfix : (s.exchange op a r).ihasfix = s.ihasfix := rfl
@[simp] theorem exchange_olat : (s.exchange op a r).olat = s.olat := rfl
@[simp] theorem exchange_olon : (s.exchange op a r).olon = s.olon := rfl
@[simp] theorem exchange_oage : (s.exchange op a r).oage = s.oage := rfl
@[simp] theorem exchange_txb : (s.exchange op a r).txb = s.txb := rfl
@[simp] theorem exchange_txlen : (s.exchange op a r).txlen = s.txlen := rfl
@[simp] theorem exchange_rxb : (s.exchange op a r).rxb = s.rxb := rfl
@[simp] theorem exchange_rxlen : (s.exchange op a r).rxlen = s.rxlen := rfl
@[simp] theorem exchange_status : (s.exchange op a r).status = s.status := rfl
@[simp] theorem exchange_lstate : (s.exchange op a r).lstate = s.lstate := rfl
@[simp] theorem exchange_istep : (s.exchange op a r).istep = s.istep := rfl
@[simp] theorem exchange_fcause : (s.exchange op a r).fcause = s.fcause := rfl
@[simp] theorem exchange_cfg : (s.exchange op a r).cfg = s.cfg := rfl
@[simp] theorem exchange_lcfg : (s.exchange op a r).lcfg = s.lcfg := rfl
@[simp] theorem exchange_cfglock : (s.exchange op a r).cfglock = s.cfglock := rfl
@[simp] theorem exchange_rxTmoEn : (s.exchange op a r).rxTmoEn = s.rxTmoEn := rfl
@[simp] theorem exchange_rxTmo : (s.exchange op a r).rxTmo = s.rxTmo := rfl
@[simp] theorem exchange_rstLine : (s.exchange op a r).rstLine = s.rstLine := rfl
@[simp] theorem exchange_ind : (s.exchange op a r).ind = s.ind := rfl
@[simp] theorem exchange_trace : (s.exchange op a r).trace = s.trace ++ [.portCall op a] := rfl
@[simp] theorem exchange_rxWait : (s.exchange op a r).rxWait = s.rxWait := rfl
@[simp] theorem exchange_host : (s.exchange op a r).host = s.host := rfl
@[simp] theorem exchange_hostReads : (s.exchange op a r).hostReads = s.hostReads := rfl
@[simp] theorem exchange_radio : (s.exchange op a r).radio = r := rfl
@[simp] theorem exchange_resetReq : (s.exchange op a r).resetReq = s.resetReq := rfl

end exchange

section putTx

variable (s : State) (bs : List Byte)

@[simp] theorem putTx_params : (s.putTx bs).params = s.params := rfl
@[simp] theorem putTx_ilat : (s.putTx bs).ilat = s.ilat := rfl
@[simp] theorem putTx_ilon : (s.putTx bs).ilon = s.ilon := rfl
@[simp] theorem putTx_iage : (s.putTx bs).iage = s.iage := rfl
@[simp] theorem putTx_ihasfix : (s.putTx bs).ihasfix = s.ihasfix := rfl
@[simp] theorem putTx_olat : (s.putTx bs).olat = s.olat := rfl
@[simp] theorem putTx_olon : (s.putTx bs).olon = s.olon := rfl
@[simp] theorem putTx_oage : (s.putTx bs).oage = s.oage := rfl
@[simp] theorem putTx_txb : (s.putTx bs).txb = s.txb.writeBytes 0 bs := rfl
@[simp] theorem putTx_txlen : (s.putTx bs).txlen = BitVec.ofNat 4 bs.length := rfl
@[simp] theorem putTx_rxb : (s.putTx bs).rxb = s.rxb := rfl
@[simp] theorem putTx_rxlen : (s.putTx bs).rxlen = s.rxlen := rfl
@[simp] theorem putTx_status : (s.putTx bs).status = .ok := rfl
@[simp] theorem putTx_lstate : (s.putTx bs).lstate = s.lstate := rfl
@[simp] theorem putTx_istep : (s.putTx bs).istep = s.istep := rfl
@[simp] theorem putTx_fcause : (s.putTx bs).fcause = s.fcause := rfl
@[simp] theorem putTx_cfg : (s.putTx bs).cfg = s.cfg := rfl
@[simp] theorem putTx_lcfg : (s.putTx bs).lcfg = s.lcfg := rfl
@[simp] theorem putTx_cfglock : (s.putTx bs).cfglock = s.cfglock := rfl
@[simp] theorem putTx_rxTmoEn : (s.putTx bs).rxTmoEn = s.rxTmoEn := rfl
@[simp] theorem putTx_rxTmo : (s.putTx bs).rxTmo = s.rxTmo := rfl
@[simp] theorem putTx_rstLine : (s.putTx bs).rstLine = s.rstLine := rfl
@[simp] theorem putTx_ind : (s.putTx bs).ind = s.ind := rfl
@[simp] theorem putTx_trace : (s.putTx bs).trace = s.trace := rfl
@[simp] theorem putTx_rxWait : (s.putTx bs).rxWait = s.rxWait := rfl
@[simp] theorem putTx_host : (s.putTx bs).host = s.host := rfl
@[simp] theorem putTx_hostReads : (s.putTx bs).hostReads = s.hostReads := rfl
@[simp] theorem putTx_radio : (s.putTx bs).radio = s.radio := rfl
@[simp] theorem putTx_resetReq : (s.putTx bs).resetReq = s.resetReq := rfl

end putTx

section putRx

variable (s : State) (bs : List Byte) (n : Nat)

@[simp] theorem putRx_params : (s.putRx bs n).params = s.params := rfl
@[simp] theorem putRx_ilat : (s.putRx bs n).ilat = s.ilat := rfl
@[simp] theorem putRx_ilon : (s.putRx bs n).ilon = s.ilon := rfl
@[simp] theorem putRx_iage : (s.putRx bs n).iage = s.iage := rfl
@[simp] theorem putRx_ihasfix : (s.putRx bs n).ihasfix = s.ihasfix := rfl
@[simp] theorem putRx_olat : (s.putRx bs n).olat = s.olat := rfl
@[simp] theorem putRx_olon : (s.putRx bs n).olon = s.olon := rfl
@[simp] theorem putRx_oage : (s.putRx bs n).oage = s.oage := rfl
@[simp] theorem putRx_txb : (s.putRx bs n).txb = s.txb := rfl
@[simp] theorem putRx_txlen : (s.putRx bs n).txlen = s.txlen := rfl
@[simp] theorem putRx_rxb : (s.putRx bs n).rxb = s.rxb.writeBytes 0 (bs.take s.params.rxCap) := rfl
@[simp] theorem putRx_rxlen : (s.putRx bs n).rxlen = BitVec.ofNat 8 n := rfl
@[simp] theorem putRx_status : (s.putRx bs n).status = s.status := rfl
@[simp] theorem putRx_lstate : (s.putRx bs n).lstate = s.lstate := rfl
@[simp] theorem putRx_istep : (s.putRx bs n).istep = s.istep := rfl
@[simp] theorem putRx_fcause : (s.putRx bs n).fcause = s.fcause := rfl
@[simp] theorem putRx_cfg : (s.putRx bs n).cfg = s.cfg := rfl
@[simp] theorem putRx_lcfg : (s.putRx bs n).lcfg = s.lcfg := rfl
@[simp] theorem putRx_cfglock : (s.putRx bs n).cfglock = s.cfglock := rfl
@[simp] theorem putRx_rxTmoEn : (s.putRx bs n).rxTmoEn = s.rxTmoEn := rfl
@[simp] theorem putRx_rxTmo : (s.putRx bs n).rxTmo = s.rxTmo := rfl
@[simp] theorem putRx_rstLine : (s.putRx bs n).rstLine = s.rstLine := rfl
@[simp] theorem putRx_ind : (s.putRx bs n).ind = s.ind := rfl
@[simp] theorem putRx_trace : (s.putRx bs n).trace = s.trace := rfl
@[simp] theorem putRx_rxWait : (s.putRx bs n).rxWait = s.rxWait := rfl
@[simp] theorem putRx_host : (s.putRx bs n).host = s.host := rfl
@[simp] theorem putRx_hostReads : (s.putRx bs n).hostReads = s.hostReads := rfl
@[simp] theorem putRx_radio : (s.putRx bs n).radio = s.radio := rfl
@[simp] theorem putRx_resetReq : (s.putRx bs n).resetReq = s.resetReq := rfl

end putRx

section putFix

variable (s : State) (la lo : Int) (a : Byte)

@[simp] theorem putFix_params : (s.putFix la lo a).params = s.params := rfl
@[simp] theorem putFix_ilat : (s.putFix la lo a).ilat = s.ilat := rfl
@[simp] theorem putFix_ilon : (s.putFix la lo a).ilon = s.ilon := rfl
@[simp] theorem putFix_iage : (s.putFix la lo a).iage = s.iage := rfl
@[simp] theorem putFix_ihasfix : (s.putFix la lo a).ihasfix = s.ihasfix := rfl
@[simp] theorem putFix_olat : (s.putFix la lo a).olat = tc s.params.coordW la := rfl
@[simp] theorem putFix_olon : (s.putFix la lo a).olon = tc s.params.coordW lo := rfl
@[simp] theorem putFix_oage : (s.putFix la lo a).oage = a := rfl
@[simp] theorem putFix_txb : (s.putFix la lo a).txb = s.txb := rfl
@[simp] theorem putFix_txlen : (s.putFix la lo a).txlen = s.txlen := rfl
@[simp] theorem putFix_rxb : (s.putFix la lo a).rxb = s.rxb := rfl
@[simp] theorem putFix_rxlen : (s.putFix la lo a).rxlen = s.rxlen := rfl
@[simp] theorem putFix_status : (s.putFix la lo a).status = .ok := rfl
@[simp] theorem putFix_lstate : (s.putFix la lo a).lstate = s.lstate := rfl
@[simp] theorem putFix_istep : (s.putFix la lo a).istep = s.istep := rfl
@[simp] theorem putFix_fcause : (s.putFix la lo a).fcause = s.fcause := rfl
@[simp] theorem putFix_cfg : (s.putFix la lo a).cfg = s.cfg := rfl
@[simp] theorem putFix_lcfg : (s.putFix la lo a).lcfg = s.lcfg := rfl
@[simp] theorem putFix_cfglock : (s.putFix la lo a).cfglock = s.cfglock := rfl
@[simp] theorem putFix_rxTmoEn : (s.putFix la lo a).rxTmoEn = s.rxTmoEn := rfl
@[simp] theorem putFix_rxTmo : (s.putFix la lo a).rxTmo = s.rxTmo := rfl
@[simp] theorem putFix_rstLine : (s.putFix la lo a).rstLine = s.rstLine := rfl
@[simp] theorem putFix_ind : (s.putFix la lo a).ind = s.ind := rfl
@[simp] theorem putFix_trace : (s.putFix la lo a).trace = s.trace := rfl
@[simp] theorem putFix_rxWait : (s.putFix la lo a).rxWait = s.rxWait := rfl
@[simp] theorem putFix_host : (s.putFix la lo a).host = s.host := rfl
@[simp] theorem putFix_hostReads : (s.putFix la lo a).hostReads = s.hostReads := rfl
@[simp] theorem putFix_radio : (s.putFix la lo a).radio = s.radio := rfl
@[simp] theorem putFix_resetReq : (s.putFix la lo a).resetReq = s.resetReq := rfl

end putFix

section driveReset

variable (s : State) (pin : Byte) (b : Bool) (d : DelayKind)

@[simp] theorem driveReset_params : (s.driveReset pin b d).params = s.params := rfl
@[simp] theorem driveReset_ilat : (s.driveReset pin b d).ilat = s.ilat := rfl
@[simp] theorem driveReset_ilon : (s.driveReset pin b d).ilon = s.ilon := rfl
@[simp] theorem driveReset_iage : (s.driveReset pin b d).iage = s.iage := rfl
@[simp] theorem driveReset_ihasfix : (s.driveReset pin b d).ihasfix = s.ihasfix := rfl
@[simp] theorem driveReset_olat : (s.driveReset pin b d).olat = s.olat := rfl
@[simp] theorem driveReset_olon : (s.driveReset pin b d).olon = s.olon := rfl
@[simp] theorem driveReset_oage : (s.driveReset pin b d).oage = s.oage := rfl
@[simp] theorem driveReset_txb : (s.driveReset pin b d).txb = s.txb := rfl
@[simp] theorem driveReset_txlen : (s.driveReset pin b d).txlen = s.txlen := rfl
@[simp] theorem driveReset_rxb : (s.driveReset pin b d).rxb = s.rxb := rfl
@[simp] theorem driveReset_rxlen : (s.driveReset pin b d).rxlen = s.rxlen := rfl
@[simp] theorem driveReset_status : (s.driveReset pin b d).status = s.status := rfl
@[simp] theorem driveReset_lstate : (s.driveReset pin b d).lstate = s.lstate := rfl
@[simp] theorem driveReset_istep : (s.driveReset pin b d).istep = s.istep := rfl
@[simp] theorem driveReset_fcause : (s.driveReset pin b d).fcause = s.fcause := rfl
@[simp] theorem driveReset_cfg : (s.driveReset pin b d).cfg = s.cfg := rfl
@[simp] theorem driveReset_lcfg : (s.driveReset pin b d).lcfg = s.lcfg := rfl
@[simp] theorem driveReset_cfglock : (s.driveReset pin b d).cfglock = s.cfglock := rfl
@[simp] theorem driveReset_rxTmoEn : (s.driveReset pin b d).rxTmoEn = s.rxTmoEn := rfl
@[simp] theorem driveReset_rxTmo : (s.driveReset pin b d).rxTmo = s.rxTmo := rfl
@[simp] theorem driveReset_rstLine : (s.driveReset pin b d).rstLine = b := rfl
@[simp] theorem driveReset_ind : (s.driveReset pin b d).ind = s.ind := rfl
@[simp] theorem driveReset_trace : (s.driveReset pin b d).trace = s.trace ++ [.rstLine pin b, .delay d] := rfl
@[simp] theorem driveReset_rxWait : (s.driveReset pin b d).rxWait = s.rxWait := rfl
@[simp] theorem driveReset_host : (s.driveReset pin b d).host = s.host := rfl
@[simp] theorem driveReset_hostReads : (s.driveReset pin b d).hostReads = s.hostReads := rfl
@[simp] theorem driveReset_radio : (s.driveReset pin b d).radio = s.radio := rfl
@[simp] theorem driveReset_resetReq : (s.driveReset pin b d).resetReq = s.resetReq := rfl

end driveReset

section initDone

variable (s : State)

@[simp] theorem initDone_params : s.initDone.params = s.params := rfl
@[simp] theorem initDone_ilat : s.initDone.ilat = s.ilat := rfl
@[simp] theorem initDone_ilon : s.initDone.ilon = s.ilon := rfl
@[simp] theorem initDone_iage : s.initDone.iage = s.iage := rfl
@[simp] theorem initDone_ihasfix : s.initDone.ihasfix = s.ihasfix := rfl
@[simp] theorem initDone_olat : s.initDone.olat = s.olat := rfl
@[simp] theorem initDone_olon : s.initDone.olon = s.olon := rfl
@[simp] theorem initDone_oage : s.initDone.oage = s.oage := rfl
@[simp] theorem initDone_txb : s.initDone.txb = s.txb := rfl
@[simp] theorem initDone_txlen : s.initDone.txlen = s.txlen := rfl
@[simp] theorem initDone_rxb : s.initDone.rxb = s.rxb := rfl
@[simp] theorem initDone_rxlen : s.initDone.rxlen = s.rxlen := rfl
@[simp] theorem initDone_status : s.initDone.status = .ok := rfl
@[simp] theorem initDone_lstate : s.initDone.lstate = .ready := rfl
@[simp] theorem initDone_istep : s.initDone.istep = 0 := rfl
@[simp] theorem initDone_fcause : s.initDone.fcause = s.fcause := rfl
@[simp] theorem initDone_cfg : s.initDone.cfg = s.cfg := rfl
@[simp] theorem initDone_lcfg : s.initDone.lcfg = s.lcfg := rfl
@[simp] theorem initDone_cfglock : s.initDone.cfglock = s.cfglock := rfl
@[simp] theorem initDone_rxTmoEn : s.initDone.rxTmoEn = s.rxTmoEn := rfl
@[simp] theorem initDone_rxTmo : s.initDone.rxTmo = s.rxTmo := rfl
@[simp] theorem initDone_rstLine : s.initDone.rstLine = s.rstLine := rfl
@[simp] theorem initDone_ind : s.initDone.ind = s.ind := rfl
@[simp] theorem initDone_trace : s.initDone.trace = s.trace := rfl
@[simp] theorem initDone_rxWait : s.initDone.rxWait = s.rxWait := rfl
@[simp] theorem initDone_host : s.initDone.host = s.host := rfl
@[simp] theorem initDone_hostReads : s.initDone.hostReads = s.hostReads := rfl
@[simp] theorem initDone_radio : s.initDone.radio = s.radio := rfl
@[simp] theorem initDone_resetReq : s.initDone.resetReq = s.resetReq := rfl

end initDone

section blink

variable (s : State)

@[simp] theorem blink_params : s.blink.params = s.params := rfl
@[simp] theorem blink_ilat : s.blink.ilat = s.ilat := rfl
@[simp] theorem blink_ilon : s.blink.ilon = s.ilon := rfl
@[simp] theorem blink_iage : s.blink.iage = s.iage := rfl
@[simp] theorem blink_ihasfix : s.blink.ihasfix = s.ihasfix := rfl
@[simp] theorem blink_olat : s.blink.olat = s.olat := rfl
@[simp] theorem blink_olon : s.blink.olon = s.olon := rfl
@[simp] theorem blink_oage : s.blink.oage = s.oage := rfl
@[simp] theorem blink_txb : s.blink.txb = s.txb := rfl
@[simp] theorem blink_txlen : s.blink.txlen = s.txlen := rfl
@[simp] theorem blink_rxb : s.blink.rxb = s.rxb := rfl
@[simp] theorem blink_rxlen : s.blink.rxlen = s.rxlen := rfl
@[simp] theorem blink_status : s.blink.status = s.status := rfl
@[simp] theorem blink_lstate : s.blink.lstate = s.lstate := rfl
@[simp] theorem blink_istep : s.blink.istep = s.istep := rfl
@[simp] theorem blink_fcause : s.blink.fcause = s.fcause := rfl
@[simp] theorem blink_cfg : s.blink.cfg = s.cfg := rfl
@[simp] theorem blink_lcfg : s.blink.lcfg = s.lcfg := rfl
@[simp] theorem blink_cfglock : s.blink.cfglock = s.cfglock := rfl
@[simp] theorem blink_rxTmoEn : s.blink.rxTmoEn = s.rxTmoEn := rfl
@[simp] theorem blink_rxTmo : s.blink.rxTmo = s.rxTmo := rfl
@[simp] theorem blink_rstLine : s.blink.rstLine = s.rstLine := rfl
@[simp] theorem blink_ind : s.blink.ind = (!s.ind) := rfl
@[simp] theorem blink_trace : s.blink.trace = s.trace ++ [.indToggle (!s.ind), .delay .blink] := rfl
@[simp] theorem blink_rxWait : s.blink.rxWait = s.rxWait := rfl
@[simp] theorem blink_host : s.blink.host = s.host := rfl
@[simp] theorem blink_hostReads : s.blink.hostReads = s.hostReads := rfl
@[simp] theorem blink_radio : s.blink.radio = s.radio := rfl
@[simp] theorem blink_resetReq : s.blink.resetReq = s.resetReq := rfl

end blink

section raise

variable (s : State) (e : Exc)

@[simp] theorem raise_params : (s.raise e).params = s.params := by cases e <;> rfl
@[simp] theorem raise_ilat : (s.raise e).ilat = s.ilat := by cases e <;> rfl
@[simp] theorem raise_ilon : (s.raise e).ilon = s.ilon := by cases e <;> rfl
@[simp] theorem raise_iage : (s.raise e).iage = s.iage := by cases e <;> rfl
@[simp] theorem raise_ihasfix : (s.raise e).ihasfix = s.ihasfix := by cases e <;> rfl
@[simp] theorem raise_olat : (s.raise e).olat = s.olat := by cases e <;> rfl
@[simp] theorem raise_olon : (s.raise e).olon = s.olon := by cases e <;> rfl
@[simp] theorem raise_oage : (s.raise e).oage = s.oage := by cases e <;> rfl
@[simp] theorem raise_txb : (s.raise e).txb = s.txb := by cases e <;> rfl
@[simp] theorem raise_rxb : (s.raise e).rxb = s.rxb := by cases e <;> rfl
@[simp] theorem raise_status : (s.raise e).status = excStatus e := by cases e <;> rfl
@[simp] theorem raise_cfg : (s.raise e).cfg = s.cfg := by cases e <;> rfl
@[simp] theorem raise_lcfg : (s.raise e).lcfg = s.lcfg := by cases e <;> rfl
@[simp] theorem raise_cfglock : (s.raise e).cfglock = s.cfglock := by cases e <;> rfl
@[simp] theorem raise_rxTmoEn : (s.raise e).rxTmoEn = s.rxTmoEn := by cases e <;> rfl
@[simp] theorem raise_rxTmo : (s.raise e).rxTmo = s.rxTmo := by cases e <;> rfl
@[simp] theorem raise_rstLine : (s.raise e).rstLine = s.rstLine := by cases e <;> rfl
@[simp] theorem raise_ind : (s.raise e).ind = s.ind := by cases e <;> rfl
@[simp] theorem raise_trace : (s.raise e).trace = s.trace := by cases e <;> rfl
@[simp] theorem raise_rxWait : (s.raise e).rxWait = s.rxWait := by cases e <;> rfl
@[simp] theorem raise_host : (s.raise e).host = s.host := by cases e <;> rfl
@[simp] theorem raise_hostReads : (s.raise e).hostReads = s.hostReads := by cases e <;> rfl
@[simp] theorem raise_radio : (s.raise e).radio = s.radio := by cases e <;> rfl
@[simp] theorem raise_resetReq : (s.raise e).resetReq = s.resetReq := by cases e <;> rfl
@[simp] theorem raise_txlen : (s.raise e).txlen = if e = .encRange then 0 else s.txlen := by cases e <;> rfl
@[simp] theorem raise_rxlen : (s.raise e).rxlen = if e = .receiveError then 0 else s.rxlen := by cases e <;> rfl
@[simp] theorem raise_fatal_lstate (c : InitCause) : (s.raise (.fatalInit c)).lstate = .faulted := rfl
@[simp] theorem raise_fatal_istep (c : InitCause) : (s.raise (.fatalInit c)).istep = 0 := rfl
@[simp] theorem raise_fatal_fcause (c : InitCause) : (s.raise (.fatalInit c)).fcause = some c := rfl

/-- What an exception other than the fatal one leaves as it was (60_exceptions.md R240 to R249). -/
theorem raise_returned (he : ∀ c, e ≠ .fatalInit c) :
    s.raise e = { s with status := excStatus e,
                         txlen := if e = .encRange then 0 else s.txlen,
                         rxlen := if e = .receiveError then 0 else s.rxlen } := by
  cases e <;> first | rfl | exact absurd rfl (he _)

end raise

end Sys2Proof.Machine
end

