-- ==== Sys2Proof/Laws/Codec.lean ====
section
/-! SUPPORT. What the codec lemmas rest on: the range tests as inequalities, the fields of a frame that stands in a
buffer, and results that never overflow a coordinate register. -/

namespace Sys2Proof.Machine

/-- `fits_abs` as inequalities (40_payload_codec.md R153). -/
theorem fitsAbs_iff (n : Int) : fitsAbs n = true ↔ -2147483648 ≤ n ∧ n ≤ 2147483647 := by
  simp only [fitsAbs, Bool.and_eq_true, decide_eq_true_eq]; exact Iff.rfl

/-- `fits_rel` as inequalities (40_payload_codec.md R153). -/
theorem fitsRel_iff (n : Int) : fitsRel n = true ↔ -32767 ≤ n ∧ n ≤ 32767 := by
  simp only [fitsRel, Bool.and_eq_true, decide_eq_true_eq]; exact Iff.rfl

/-- The range test fails only under `RANGE_POLICY = Fault` (40_payload_codec.md R153). -/
theorem outOfRange_iff (p : Params) (b : Bool) :
    outOfRange p b = true ↔ p.rangePolicy = .fault ∧ b = false := by simp [outOfRange]

/-- The fields of an absolute frame in a buffer. -/
theorem absFields (m : Memory) (bo : ByteOrder) (lat lon : Nat) (age : Byte)
    (h : m.readBytes 0 9 = absBytes bo lat lon age) :
    m.readBytes 0 4 = bytesN bo 4 lat ∧ m.readBytes 4 4 = bytesN bo 4 lon ∧ m.read 8 = age := by
  have e : m.readBytes 0 9 = m.readBytes 0 4 ++ m.readBytes 4 4 ++ [m.read 8] := by
    rw [show 9 = 4 + (4 + 1) by rfl, readBytes_add, readBytes_add]; simp [Memory.readBytes]
  rw [e, absBytes] at h
  have h1 := List.append_inj h (by simp)
  have h2 := List.append_inj h1.1 (by simp)
  exact ⟨h2.1, h2.2, by simpa using h1.2⟩

/-- The fields of a relative frame in a buffer. -/
theorem relFields (m : Memory) (bo : ByteOrder) (dlat dlon : Nat) (age : Byte)
    (h : m.readBytes 0 7 = relBytes bo dlat dlon age) :
    m.read 0 = Config.magic0 ∧ m.read 1 = Config.magic1 ∧ m.readBytes 2 2 = bytesN bo 2 dlat ∧
      m.readBytes 4 2 = bytesN bo 2 dlon ∧ m.read 6 = age := by
  have e : m.readBytes 0 7 =
      [m.read 0, m.read 1] ++ m.readBytes 2 2 ++ m.readBytes 4 2 ++ [m.read 6] := by
    rw [show 7 = 2 + (2 + (2 + 1)) by rfl, readBytes_add, readBytes_add, readBytes_add]
    simp [Memory.readBytes]
  rw [e, relBytes] at h
  have h1 := List.append_inj h (by simp)
  have h2 := List.append_inj h1.1 (by simp)
  have h3 := List.append_inj h2.1 (by simp)
  simp only [List.cons.injEq, and_true] at h3
  exact ⟨h3.1.1, h3.1.2, h3.2, h2.2, by simpa using h1.2⟩

/-- The two frame units of valid parameters are positive, and they are what 00_scope.md R24 says. -/
theorem q_of_valid (p : Params) (h : p.Valid) :
    0 < qAbs p ∧ qRel p = 10 * qAbs p ∧ p.coordDen = 1000000 * qAbs p := by
  obtain ⟨h1, h2, -⟩ := h
  unfold qAbs qRel Config.absScale Config.relScale
  refine ⟨by omega, by omega, by omega⟩

/-- The default parameters are valid (00_scope.md R16, R19). -/
theorem defaults_valid : Config.defaults.Valid := by decide

/-- No absolute decode overflows (40_payload_codec.md R157). -/
theorem sext_tc_abs (p : Params) (hv : p.Valid) (f : Int) (h1 : -2147483648 ≤ f) (h2 : f ≤ 2147483647) :
    sext p.coordW (tc p.coordW (f * qAbs p)) = f * qAbs p := by
  obtain ⟨h3, h4, h5, h6, -⟩ := hv
  have h7 : ((2 ^ 31 * (p.coordDen / 1000000) + p.refLatQ.natAbs + p.refLonQ.natAbs : Nat) : Int) <
      ((2 ^ (p.coordW - 1) : Nat) : Int) := by exact_mod_cast h5
  have hq : (qAbs p : Int) = ((p.coordDen / 1000000 : Nat) : Int) := rfl
  have hp : 0 ≤ (qAbs p : Int) := by omega
  apply sext_tc _ _ h6
  all_goals
    push_cast at h7 hq ⊢
    rw [← hq] at h7
    nlinarith [abs_nonneg p.refLatQ, abs_nonneg p.refLonQ]

/-- No relative decode overflows (40_payload_codec.md R163). -/
theorem sext_tc_rel (p : Params) (hv : p.Valid) (f r : Int) (h1 : -32768 ≤ f) (h2 : f ≤ 32767)
    (hr : r = p.refLatQ ∨ r = p.refLonQ) :
    sext p.coordW (tc p.coordW (r + f * qRel p)) = r + f * qRel p := by
  have hq := (q_of_valid p hv).2.1
  obtain ⟨h3, h4, h5, h6, -⟩ := hv
  have h7 : ((2 ^ 31 * qAbs p + p.refLatQ.natAbs + p.refLonQ.natAbs : Nat) : Int) <
      ((2 ^ (p.coordW - 1) : Nat) : Int) := by exact_mod_cast h5
  rw [hq]
  generalize qAbs p = Q at *
  have hb : |f * (10 * (Q : Int))| ≤ 327680 * Q := by
    rw [abs_mul, abs_of_nonneg (show (0 : Int) ≤ 10 * Q by omega)]
    have : |f| ≤ 32768 := abs_le.2 ⟨h1, by omega⟩
    nlinarith
  have hb' := abs_le.1 hb
  apply sext_tc _ _ h6
  all_goals
    push_cast at h7 ⊢
    rcases hr with rfl | rfl <;>
      nlinarith [abs_nonneg p.refLatQ, abs_nonneg p.refLonQ, neg_abs_le p.refLatQ, neg_abs_le p.refLonQ,
        le_abs_self p.refLatQ, le_abs_self p.refLonQ]

/-- A four-byte field as the rules write it (30_encoding.md R120). -/
theorem field_four (p : Params) (m : Memory) (i : Nat) :
    field p (m.readBytes i 4) = sext 32 (wordN p.byteOrder (m.readBytes i 4)) := by simp [field]

/-- A two-byte field as the rules write it (30_encoding.md R120). -/
theorem field_two (p : Params) (m : Memory) (i : Nat) :
    field p (m.readBytes i 2) = sext 16 (wordN p.byteOrder (m.readBytes i 2)) := by simp [field]

/-- The pattern of a 32-bit field, read as a signed integer. -/
theorem sext_word (w : Word) : sext 32 w.toNat = w.toInt := by
  unfold sext; rw [BitVec.toInt_eq_toNat_cond]; split_ifs <;> omega

/-- The pattern of a 16-bit field, read as a signed integer. -/
theorem sext_half (w : Half) : sext 16 w.toNat = w.toInt := by
  unfold sext; rw [BitVec.toInt_eq_toNat_cond]; split_ifs <;> omega

/-- A delivered or presented byte sequence stands in `RXB` up to its capacity (41_link_layer.md R202). -/
theorem read_putRx (s : State) (bytes : List Byte) (len i : Nat) (h : Memory.wf s.rxb = true)
    (hi : i < bytes.length) (hc : i < s.params.rxCap) : (s.putRx bytes len).rxb.read i = bytes[i] := by
  unfold State.putRx
  rw [read_writeBytes _ _ _ h, dif_pos ⟨Nat.zero_le i, by rw [List.length_take]; omega⟩]
  simp

/-- The other bytes of `RXB` keep their values (41_link_layer.md R202). -/
theorem read_putRx_past (s : State) (bytes : List Byte) (len i : Nat) (h : Memory.wf s.rxb = true)
    (hi : min bytes.length s.params.rxCap ≤ i) : (s.putRx bytes len).rxb.read i = s.rxb.read i := by
  unfold State.putRx
  exact read_writeBytes_past _ _ _ h (by rw [List.length_take]; omega)

/-- `RXB` stays canonical and within its capacity. -/
theorem rxb_putRx (s : State) (bytes : List Byte) (len : Nat)
    (h : Memory.wf s.rxb = true ∧ Memory.below s.params.rxCap s.rxb = true) :
    Memory.wf (s.putRx bytes len).rxb = true ∧ Memory.below s.params.rxCap (s.putRx bytes len).rxb = true :=
  ⟨wf_writeBytes 0 _ h.1, below_writeBytes 0 _ h.2 (by rw [List.length_take]; omega)⟩

/-- `TXB` stays canonical and within its nine bytes. -/
theorem txb_putTx (s : State) (bytes : List Byte) (hb : bytes.length ≤ 9)
    (h : Memory.wf s.txb = true ∧ Memory.below 9 s.txb = true) :
    Memory.wf (s.putTx bytes).txb = true ∧ Memory.below 9 (s.putTx bytes).txb = true :=
  ⟨wf_writeBytes 0 _ h.1, below_writeBytes 0 _ h.2 (by omega)⟩

end Sys2Proof.Machine
end

