-- ==== Sys2Proof/Laws/Encoding.lean ====
section
/-! SUPPORT. A frame's bytes determine its row: the decoder's two frame cases as equations. -/

namespace Sys2Proof

/-- The bytes of a frame row's fields are the bytes decoded. -/
theorem encode_of_decodeFrame (bo : ByteOrder) (bytes : List Byte) (i : Instr)
    (h : decodeFrame bo bytes = .ok i) : encode bo i = .frame bytes := by
  unfold decodeFrame at h
  split at h
  · rename_i b0 b1 b2 b3 b4 b5 b6 b7 b8
    injection h with h
    subst h
    have h1 := bytesN_wordN bo [b0, b1, b2, b3]
    have h2 := bytesN_wordN bo [b4, b5, b6, b7]
    have l1 := wordN_lt bo [b0, b1, b2, b3]
    have l2 := wordN_lt bo [b4, b5, b6, b7]
    simp only [List.length_cons, List.length_nil] at h1 h2 l1 l2
    simp only [encode, absBytes, BitVec.toNat_ofNat]
    rw [Nat.mod_eq_of_lt (by omega), Nat.mod_eq_of_lt (by omega), h1, h2]
    rfl
  · split_ifs at h with hm
    rename_i m0 m1 b2 b3 b4 b5 b6
    injection h with h
    subst h
    have h1 := bytesN_wordN bo [b2, b3]
    have h2 := bytesN_wordN bo [b4, b5]
    have l1 := wordN_lt bo [b2, b3]
    have l2 := wordN_lt bo [b4, b5]
    simp only [List.length_cons, List.length_nil] at h1 h2 l1 l2
    simp only [encode, relBytes, BitVec.toNat_ofNat]
    rw [Nat.mod_eq_of_lt (by omega), Nat.mod_eq_of_lt (by omega), h1, h2, hm.1, hm.2]
    rfl
  · injection h

/-- A decoded frame is one of the two frame rows. -/
theorem decodeFrame_format (bo : ByteOrder) (bytes : List Byte) (i : Instr) (h : decodeFrame bo bytes = .ok i) :
    (∃ lat lon age, i = .frameAbs lat lon age) ∨ (∃ dlat dlon age, i = .frameRel dlat dlon age) := by
  unfold decodeFrame at h
  split at h
  · injection h with h; exact .inl ⟨_, _, _, h.symm⟩
  · split_ifs at h; injection h with h; exact .inr ⟨_, _, _, h.symm⟩
  · injection h

/-- The instruction a command byte selects is well-formed (30_encoding.md R112, R113). -/
theorem decodeCmd_wf (b : Byte) : (decodeCmd b).wf = true := by
  unfold decodeCmd
  split_ifs <;> simp_all [Instr.wf, commandBytes]

end Sys2Proof
end

