-- ==== Sys2Proof/Laws/PerInstr.lean ====
section
/-! SUPPORT. Statements about every instruction as syntax, one lemma for each constructor. -/

namespace Sys2Proof.Laws.EncodeShape

/-- The encoding of a well-formed instruction has the shape of its format: one byte, a port operation number below 8
with its arguments, nine bytes, or seven bytes that begin with the magic (30_encoding.md R110, R114, R115, R125). -/
def Statement (i : Instr) : Prop :=
  ∀ bo : ByteOrder, i.wf = true →
    match i.format with
    | .cmd => ∃ b, encode bo i = .cmd b
    | .port => ∃ op args, encode bo i = .port op args ∧ op.toNat < 8
    | .abs => ∃ bytes, encode bo i = .frame bytes ∧ bytes.length = 9
    | .rel => ∃ bytes, encode bo i = .frame (Config.magic0 :: Config.magic1 :: bytes) ∧ bytes.length = 5

theorem encAbs : Statement .encAbs := fun _ _ => ⟨_, rfl⟩
theorem decAbs : Statement .decAbs := fun _ _ => ⟨_, rfl⟩
theorem encRel : Statement .encRel := fun _ _ => ⟨_, rfl⟩
theorem decRel : Statement .decRel := fun _ _ => ⟨_, rfl⟩
theorem init : Statement .init := fun _ _ => ⟨_, rfl⟩
theorem send : Statement .send := fun _ _ => ⟨_, rfl⟩
theorem recv : Statement .recv := fun _ _ => ⟨_, rfl⟩
theorem reset (pin : Byte) : Statement (.reset pin) := fun _ _ => ⟨_, _, rfl, by decide⟩
theorem bringup (cs irq : Byte) : Statement (.bringup cs irq) := fun _ _ => ⟨_, _, rfl, by decide⟩
theorem setfreq (mhz : Word) : Statement (.setfreq mhz) := fun _ _ => ⟨_, _, rfl, by decide⟩
theorem setaddr (id : Byte) : Statement (.setaddr id) := fun _ _ => ⟨_, _, rfl, by decide⟩
theorem setpromisc (on : Bool) : Statement (.setpromisc on) := fun _ _ => ⟨_, _, rfl, by decide⟩
theorem settxpower (dbm : Byte) (boost : Bool) : Statement (.settxpower dbm boost) :=
  fun _ _ => ⟨_, _, rfl, by decide⟩
theorem sendbytes (buf : List Byte) : Statement (.sendbytes buf) := fun _ _ => ⟨_, _, rfl, by decide⟩
theorem recvbytes (tmoEn : Bool) (tmo : Word) : Statement (.recvbytes tmoEn tmo) :=
  fun _ _ => ⟨_, _, rfl, by decide⟩
theorem frameAbs (lat lon : Word) (age : Byte) : Statement (.frameAbs lat lon age) :=
  fun _ _ => ⟨_, rfl, length_absBytes ..⟩
theorem frameRel (dlat dlon : Half) (age : Byte) : Statement (.frameRel dlat dlon age) :=
  fun bo _ => ⟨bytesN bo 2 dlat.toNat ++ bytesN bo 2 dlon.toNat ++ [age], rfl, by simp⟩
theorem illegal (opcode : Byte) : Statement (.illegal opcode) := fun _ _ => ⟨_, rfl⟩

end Sys2Proof.Laws.EncodeShape
end

