-- ==== Sys2Proof/Laws/Step.lean ====
section
/-! SUPPORT. Everything a step can do, said once: equations of `step`, and one inversion lemma for later proofs to
cite. -/

namespace Sys2Proof.Machine

/-- The instruction a host write of `v` to `CMD` selects (20_memory.md R102). -/
abbrev issued (v : Int) : Instr := decodeCmd (BitVec.ofNat 8 (tc 8 v))

/-- A hardware reset comes before everything else (70_reset_and_hazards.md R281). -/
theorem step_reset (s : State) (h : s.resetReq = true) : step s = .next s.hardReset := by
  simp [step, State.turn, h]

/-- `(Resetting, 0)` (41_link_layer.md R186). -/
theorem step_resetting_zero (s : State) (hr : s.resetReq = false) (hl : s.lstate = .resetting)
    (hk : s.istep = 0) : step s = exec (.reset s.lcfg.resetPin) s := by
  simp [step, State.turn, State.microStep, hr, hl, hk]

/-- `(Resetting, 1)` (41_link_layer.md R187). -/
theorem step_resetting_one (s : State) (hr : s.resetReq = false) (hl : s.lstate = .resetting)
    (hk : s.istep = 1) : step s = exec (.reset s.lcfg.resetPin) s := by
  simp [step, State.turn, State.microStep, hr, hl, hk]

/-- `(Initializing, 0)` (41_link_layer.md R188). -/
theorem step_bringup (s : State) (hr : s.resetReq = false) (hl : s.lstate = .initializing)
    (hk : s.istep = 0) : step s = exec (.bringup s.lcfg.csPin s.lcfg.irqPin) s := by
  simp [step, State.turn, State.microStep, hr, hl, hk]

/-- `(Initializing, 1)` (41_link_layer.md R189). -/
theorem step_setfreq (s : State) (hr : s.resetReq = false) (hl : s.lstate = .initializing)
    (hk : s.istep = 1) : step s = exec (.setfreq s.lcfg.freq) s := by
  simp [step, State.turn, State.microStep, hr, hl, hk]

/-- `(Initializing, 2)` (41_link_layer.md R190). -/
theorem step_setaddr (s : State) (hr : s.resetReq = false) (hl : s.lstate = .initializing)
    (hk : s.istep = 2) : step s = exec (.setaddr s.lcfg.addr) s := by
  simp [step, State.turn, State.microStep, hr, hl, hk]

/-- `(Initializing, 3)` (41_link_layer.md R191). -/
theorem step_setpromisc (s : State) (hr : s.resetReq = false) (hl : s.lstate = .initializing)
    (hk : s.istep = 3) : step s = exec (.setpromisc false) s := by
  simp [step, State.turn, State.microStep, hr, hl, hk]

/-- `(Initializing, 4)` with a power configured (41_link_layer.md R192). -/
theorem step_settxpower (s : State) (hr : s.resetReq = false) (hl : s.lstate = .initializing)
    (hk : s.istep = 4) (ht : s.lcfg.txpEn = true) :
    step s = exec (.settxpower s.lcfg.txp s.params.useBoostPin) s := by
  simp [step, State.turn, State.microStep, hr, hl, hk, ht]

/-- `(Initializing, 4)` without one (41_link_layer.md R192). -/
theorem step_initDone (s : State) (hr : s.resetReq = false) (hl : s.lstate = .initializing)
    (hk : s.istep = 4) (ht : s.lcfg.txpEn = false) : step s = .next s.initDone := by
  simp [step, State.turn, State.microStep, hr, hl, hk, ht]

/-- The blink step (41_link_layer.md R205). -/
theorem step_blink (s : State) (hr : s.resetReq = false) (hl : s.lstate = .faulted) (hk : s.istep = 0) :
    step s = .next s.blink := by
  simp [step, State.turn, hr, hl, hk]

/-- A `RECV` that waits tries its exchange again (41_link_layer.md R202, log 6). -/
theorem step_wait (s : State) (hr : s.resetReq = false) (hl : s.lstate = .uninitialized ∨ s.lstate = .ready)
    (hw : s.rxWait = true) : step s = exec (.recvbytes s.rxTmoEn s.rxTmo) s := by
  rcases hl with hl | hl <;> simp [step, State.turn, hr, hl, hw]

/-- With the block idle the host has the step (10_state.md R63). -/
theorem turn_idle (s : State) (hr : s.resetReq = false) (hi : s.idle = true) : s.turn = s.hostTurn := by
  simp only [State.idle, Bool.and_eq_true, Bool.or_eq_true, decide_eq_true_eq, Bool.not_eq_true'] at hi
  rcases hi.1 with hl | hl <;> simp [State.turn, hr, hl, hi.2]

/-- With nothing issued the block waits (70_reset_and_hazards.md R280). -/
theorem step_idle_nil (s : State) (hr : s.resetReq = false) (hi : s.idle = true) (hh : s.host = []) :
    step s = .next s := by simp [step, turn_idle s hr hi, State.hostTurn, hh]

/-- A command is issued (20_memory.md R102). -/
theorem step_idle_command (s : State) (v : Int) (rest : List HostOp) (hr : s.resetReq = false)
    (hi : s.idle = true) (hh : s.host = .write 0x00 v :: rest) :
    step s = exec (issued v) { s with host := rest } := by
  simp [step, turn_idle s hr hi, State.hostTurn, hh, issued]

/-- A register is written (20_memory.md R100). -/
theorem step_idle_write (s : State) (n : BitVec 8) (v : Int) (rest : List HostOp) (hr : s.resetReq = false)
    (hi : s.idle = true) (hh : s.host = .write n v :: rest) (hn : n ≠ 0) :
    step s = .next ({ s with host := rest }.hostWrite n v) := by
  simp only [step, turn_idle s hr hi, State.hostTurn, hh, if_neg hn]

/-- A register is read (20_memory.md R101). -/
theorem step_idle_read (s : State) (n : BitVec 8) (rest : List HostOp) (hr : s.resetReq = false)
    (hi : s.idle = true) (hh : s.host = .read n :: rest) :
    step s = .next { s with host := rest, hostReads := s.hostReads ++ [s.hostRead n] } := by
  simp [step, turn_idle s hr hi, State.hostTurn, hh]

/-- Running the row that a byte sequence decodes to presents that byte sequence (log 13). -/
theorem exec_decodeFrame (s : State) (bytes : List Byte) (i : Instr)
    (h : decodeFrame s.params.byteOrder bytes = .ok i) : exec i s = .next (s.loadRx bytes) := by
  have he := encode_of_decodeFrame _ _ _ h
  rcases decodeFrame_format _ _ _ h with ⟨lat, lon, age, rfl⟩ | ⟨lat, lon, age, rfl⟩ <;>
    · simp only [encode, Code.frame.injEq] at he
      simp only [exec, execFrameAbs, execFrameRel, he]

/-- Bytes are presented, frame or not (30_encoding.md R131). -/
theorem step_idle_loadRx (s : State) (bytes : List Byte) (rest : List HostOp) (hr : s.resetReq = false)
    (hi : s.idle = true) (hh : s.host = .loadRx bytes :: rest) :
    step s = .next ({ s with host := rest }.loadRx bytes) := by
  simp only [step, turn_idle s hr hi, State.hostTurn, hh]
  cases hd : decodeFrame s.params.byteOrder bytes with
  | ok i => exact exec_decodeFrame { s with host := rest } bytes i hd
  | error e => rfl

/-- Everything a step can do. -/
inductive Stepped (s t : State) : Prop
  | reset (hr : s.resetReq = true) (ht : t = s.hardReset)
  | pulseLow (hr : s.resetReq = false) (hl : s.lstate = .resetting) (hk : s.istep = 0)
      (ht : t = (s.driveReset s.lcfg.resetPin false .resetLow).setPc .resetting 1)
  | pulseHigh (hr : s.resetReq = false) (hl : s.lstate = .resetting) (hk : s.istep = 1)
      (ht : t = (s.driveReset s.lcfg.resetPin true .resetHigh).setPc .initializing 0)
  | broughtUp (hr : s.resetReq = false) (hl : s.lstate = .initializing) (hk : s.istep = 0)
      (hb : s.radio.bringupAnswer = true)
      (ht : t = (s.exchange (.bringup s.lcfg.csPin s.lcfg.irqPin) (.bool true)
        s.radio.afterBringup).setPc .initializing 1)
  | bringupFailed (hr : s.resetReq = false) (hl : s.lstate = .initializing) (hk : s.istep = 0)
      (hb : s.radio.bringupAnswer = false)
      (ht : t = (s.exchange (.bringup s.lcfg.csPin s.lcfg.irqPin) (.bool false)
        s.radio.afterBringup).raise (.fatalInit .bringUp))
  | freqSet (hr : s.resetReq = false) (hl : s.lstate = .initializing) (hk : s.istep = 1)
      (hb : s.radio.setfreqAnswer = true)
      (ht : t = (s.exchange (.setfreq s.lcfg.freq) (.bool true)
        s.radio.afterSetfreq).setPc .initializing 2)
  | setfreqFailed (hr : s.resetReq = false) (hl : s.lstate = .initializing) (hk : s.istep = 1)
      (hb : s.radio.setfreqAnswer = false)
      (ht : t = (s.exchange (.setfreq s.lcfg.freq) (.bool false)
        s.radio.afterSetfreq).raise (.fatalInit .setFreq))
  | addrSet (hr : s.resetReq = false) (hl : s.lstate = .initializing) (hk : s.istep = 2)
      (ht : t = (s.exchange (.setaddr s.lcfg.addr) .none s.radio).setPc .initializing 3)
  | promiscOff (hr : s.resetReq = false) (hl : s.lstate = .initializing) (hk : s.istep = 3)
      (ht : t = (s.exchange (.setpromisc false) .none s.radio).setPc .initializing 4)
  | powerSet (hr : s.resetReq = false) (hl : s.lstate = .initializing) (hk : s.istep = 4)
      (he : s.lcfg.txpEn = true)
      (ht : t = (s.exchange (.settxpower s.lcfg.txp s.params.useBoostPin) .none s.radio).initDone)
  | noPower (hr : s.resetReq = false) (hl : s.lstate = .initializing) (hk : s.istep = 4)
      (he : s.lcfg.txpEn = false) (ht : t = s.initDone)
  | blinked (hr : s.resetReq = false) (hl : s.lstate = .faulted) (hk : s.istep = 0) (ht : t = s.blink)
  | waited (hr : s.resetReq = false) (hl : s.lstate = .uninitialized ∨ s.lstate = .ready)
      (hw : s.rxWait = true) (ht : t = s.recvBytes s.rxTmoEn s.rxTmo)
  | nothing (hr : s.resetReq = false) (hi : s.idle = true) (hh : s.host = []) (ht : t = s)
  | command (v : Int) (rest : List HostOp) (hr : s.resetReq = false) (hi : s.idle = true)
      (hh : s.host = .write 0x00 v :: rest) (ht : exec (issued v) { s with host := rest } = .next t)
  | written (n : BitVec 8) (v : Int) (rest : List HostOp) (hr : s.resetReq = false) (hi : s.idle = true)
      (hh : s.host = .write n v :: rest) (hn : n ≠ 0) (ht : t = { s with host := rest }.hostWrite n v)
  | read (n : BitVec 8) (rest : List HostOp) (hr : s.resetReq = false) (hi : s.idle = true)
      (hh : s.host = .read n :: rest)
      (ht : t = { s with host := rest, hostReads := s.hostReads ++ [s.hostRead n] })
  | presented (bytes : List Byte) (rest : List HostOp) (hr : s.resetReq = false) (hi : s.idle = true)
      (hh : s.host = .loadRx bytes :: rest) (ht : t = { s with host := rest }.loadRx bytes)

/-- Whether the block is idle, by its fields (10_state.md R63). -/
theorem idle_iff (s : State) :
    s.idle = true ↔ (s.lstate = .uninitialized ∨ s.lstate = .ready) ∧ s.rxWait = false := by
  simp [State.idle]

/-- A pattern of three bits by its number. -/
theorem istep_eq (k : BitVec 3) (n : Nat) (hn : n < 8) (h : k.toNat = n) : k = BitVec.ofNat 3 n := by
  apply BitVec.eq_of_toNat_eq; rw [h, BitVec.toNat_ofNat, Nat.mod_eq_of_lt hn]

/-- No micro-step past the second half of the pulse (10_state.md R61). -/
theorem microStep_resetting (s : State) (hl : s.lstate = .resetting) (h0 : s.istep ≠ 0) (h1 : s.istep ≠ 1) :
    s.microStep = .stuck := by
  have a0 : s.istep.toNat ≠ 0 := fun h => h0 (istep_eq _ 0 (by norm_num) h)
  have a1 : s.istep.toNat ≠ 1 := fun h => h1 (istep_eq _ 1 (by norm_num) h)
  unfold State.microStep
  rw [hl]
  split <;> first | rfl | contradiction

/-- No micro-step past the last one of `INIT` (10_state.md R61). -/
theorem microStep_initializing (s : State) (hl : s.lstate = .initializing) (h0 : s.istep ≠ 0)
    (h1 : s.istep ≠ 1) (h2 : s.istep ≠ 2) (h3 : s.istep ≠ 3) (h4 : s.istep ≠ 4) :
    s.microStep = .stuck := by
  have a0 : s.istep.toNat ≠ 0 := fun h => h0 (istep_eq _ 0 (by norm_num) h)
  have a1 : s.istep.toNat ≠ 1 := fun h => h1 (istep_eq _ 1 (by norm_num) h)
  have a2 : s.istep.toNat ≠ 2 := fun h => h2 (istep_eq _ 2 (by norm_num) h)
  have a3 : s.istep.toNat ≠ 3 := fun h => h3 (istep_eq _ 3 (by norm_num) h)
  have a4 : s.istep.toNat ≠ 4 := fun h => h4 (istep_eq _ 4 (by norm_num) h)
  unfold State.microStep
  rw [hl]
  split <;> first | rfl | contradiction

/-- The inversion lemma of `step`. -/
theorem step_cases {s t : State} (h : step s = .next t) : Stepped s t := by
  cases hr : s.resetReq with
  | true => rw [step_reset s hr] at h; injection h with h; exact .reset hr h.symm
  | false =>
    have idleCase : s.idle = true → Stepped s t := fun hi => by
      match hh : s.host with
      | [] => rw [step_idle_nil s hr hi hh] at h; injection h with h; exact .nothing hr hi hh h.symm
      | .write n v :: rest =>
        by_cases hn : n = 0
        · subst hn
          rw [step_idle_command s v rest hr hi hh] at h
          exact .command v rest hr hi hh h
        · rw [step_idle_write s n v rest hr hi hh hn] at h
          injection h with h
          exact .written n v rest hr hi hh hn h.symm
      | .read n :: rest =>
        rw [step_idle_read s n rest hr hi hh] at h; injection h with h
        exact .read n rest hr hi hh h.symm
      | .loadRx bytes :: rest =>
        rw [step_idle_loadRx s bytes rest hr hi hh] at h; injection h with h
        exact .presented bytes rest hr hi hh h.symm
    have hostCase : s.lstate = .uninitialized ∨ s.lstate = .ready → Stepped s t := fun hl => by
      cases hw : s.rxWait with
      | true =>
        rw [step_wait s hr hl hw] at h
        simp only [exec, execRecvbytes] at h
        injection h with h
        exact .waited hr hl hw h.symm
      | false => exact idleCase ((idle_iff s).2 ⟨hl, hw⟩)
    cases hl : s.lstate with
    | uninitialized => exact hostCase (.inl hl)
    | ready => exact hostCase (.inr hl)
    | faulted =>
      by_cases hk : s.istep = 0
      · rw [step_blink s hr hl hk] at h; injection h with h; exact .blinked hr hl hk h.symm
      · simp only [step, State.turn, hr, hl, if_neg hk] at h
        injection h
    | resetting =>
      by_cases hk : s.istep = 0
      · rw [step_resetting_zero s hr hl hk] at h
        simp only [exec, execReset, hl, hk] at h
        injection h with h
        exact .pulseLow hr hl hk h.symm
      · by_cases hk1 : s.istep = 1
        · rw [step_resetting_one s hr hl hk1] at h
          simp only [exec, execReset, hl, hk1] at h
          injection h with h
          exact .pulseHigh hr hl hk1 h.symm
        · simp [step, State.turn, hr, hl, microStep_resetting s hl hk hk1] at h
    | initializing =>
      by_cases hk0 : s.istep = 0
      · rw [step_bringup s hr hl hk0] at h
        simp only [exec, execBringup] at h
        injection h with h
        cases hb : s.radio.bringupAnswer <;> simp only [hb] at h
        · exact .bringupFailed hr hl hk0 hb h.symm
        · exact .broughtUp hr hl hk0 hb h.symm
      by_cases hk1 : s.istep = 1
      · rw [step_setfreq s hr hl hk1] at h
        simp only [exec, execSetfreq] at h
        injection h with h
        cases hb : s.radio.setfreqAnswer <;> simp only [hb] at h
        · exact .setfreqFailed hr hl hk1 hb h.symm
        · exact .freqSet hr hl hk1 hb h.symm
      by_cases hk2 : s.istep = 2
      · rw [step_setaddr s hr hl hk2] at h; simp only [exec, execSetaddr] at h
        injection h with h; exact .addrSet hr hl hk2 h.symm
      by_cases hk3 : s.istep = 3
      · rw [step_setpromisc s hr hl hk3] at h; simp only [exec, execSetpromisc] at h
        injection h with h; exact .promiscOff hr hl hk3 h.symm
      by_cases hk4 : s.istep = 4
      · cases he : s.lcfg.txpEn with
        | true =>
          rw [step_settxpower s hr hl hk4 he] at h; simp only [exec, execSettxpower] at h
          injection h with h; exact .powerSet hr hl hk4 he h.symm
        | false =>
          rw [step_initDone s hr hl hk4 he] at h; injection h with h
          exact .noPower hr hl hk4 he h.symm
      simp [step, State.turn, hr, hl, microStep_initializing s hl hk0 hk1 hk2 hk3 hk4] at h

/-- Everything a command issued by the host can do (30_encoding.md R112, R113). -/
inductive Commanded (b : Byte) (s t : State) : Prop
  | raised (e : Exc) (he : ∀ c, e ≠ .fatalInit c) (ht : t = s.raise e)
  | encoded (bytes : List Byte) (hb : bytes.length = 9 ∨ bytes.length = 7) (ht : t = s.putTx bytes)
  | decoded (lat lon : Int) (age : Byte) (ht : t = s.putFix lat lon age)
  | accepted (hb : b = 0x10) (hl : s.lstate = .uninitialized) (hc : cfgIllegal s.cfg = false)
      (ht : t = ({ s with lcfg := s.cfg, cfglock := true }).setPc .resetting 0)
  | sent (hl : s.lstate = .ready) (ht : t = s.sendBytes (s.txb.readBytes 0 s.txlen.toNat))
  | received (hl : s.lstate = .ready) (ht : t = s.recvBytes s.rxTmoEn s.rxTmo)

/-- The inversion lemma of a command. -/
theorem exec_command {s t : State} {b : Byte} (h : exec (decodeCmd b) s = .next t) : Commanded b s t := by
  unfold decodeCmd at h
  split_ifs at h <;>
    simp only [exec, execEncAbs, execDecAbs, execEncRel, execDecRel, execInit, execSend, execRecv,
      execIllegal] at h
  · split_ifs at h <;> injection h with h
    · exact .raised _ (by simp) h.symm
    · exact .encoded _ (by simp) h.symm
  · split_ifs at h <;> injection h with h
    · exact .raised _ (by simp) h.symm
    · exact .decoded _ _ _ h.symm
  · split_ifs at h <;> injection h with h
    · exact .raised _ (by simp) h.symm
    · exact .encoded _ (by simp) h.symm
  · split_ifs at h <;> injection h with h
    · exact .raised _ (by simp) h.symm
    · exact .raised _ (by simp) h.symm
    · exact .decoded _ _ _ h.symm
  · split_ifs at h with h1 h2 <;> injection h with h
    · exact .raised _ (by simp) h.symm
    · exact .raised _ (by simp) h.symm
    · exact .accepted ‹b = 0x10› (by simpa using h1) (by simpa using h2) h.symm
  · split_ifs at h with h1 <;> injection h with h
    · exact .raised _ (by simp) h.symm
    · exact .sent (by simpa using h1) h.symm
  · split_ifs at h with h1 <;> injection h with h
    · exact .raised _ (by simp) h.symm
    · exact .received (by simpa using h1) h.symm
  · injection h with h
    exact .raised _ (by simp) h.symm

/-- The three things a `RECVBYTES` exchange can do (42_radio_port.md R228, 41_link_layer.md R202, R203). -/
inductive Received (tmoEn : Bool) (tmo : Word) (s t : State) : Prop
  | withheld (he : tmoEn = false) (hd : s.radio.recvbytesDraw = .withheld)
      (ht : t = { s with radio := s.radio.afterRecvbytes, rxWait := true })
  | nothing (hd : s.radio.recvbytesDraw = .nothing ∨ (tmoEn = true ∧ s.radio.recvbytesDraw = .withheld))
      (ht : t = { s with trace := s.trace ++ [.portCall (.recvbytes tmoEn tmo) .nothing],
                         radio := s.radio.afterRecvbytes, rxlen := 0, status := .receiveError,
                         rxWait := false })
  | bytes (l : List Byte) (hd : s.radio.recvbytesDraw = .bytes l)
      (ht : t = { s with trace := s.trace ++ [.portCall (.recvbytes tmoEn tmo) (.bytes l)],
                         radio := s.radio.afterRecvbytes,
                         rxb := s.rxb.writeBytes 0 (l.take s.params.rxCap),
                         rxlen := BitVec.ofNat 8 (min l.length 255), status := .ok, rxWait := false })

/-- The inversion lemma of the `RECVBYTES` exchange. -/
theorem recvBytes_cases (tmoEn : Bool) (tmo : Word) (s : State) :
    Received tmoEn tmo s (s.recvBytes tmoEn tmo) := by
  unfold State.recvBytes recvOutcome
  cases hd : s.radio.recvbytesDraw with
  | nothing =>
    exact .nothing (.inl hd) (by simp [State.exchange, State.emit, State.raise, State.setStatus, excStatus])
  | bytes l =>
    exact .bytes l hd (by simp [State.exchange, State.emit, State.putRx, State.setStatus])
  | withheld =>
    cases tmoEn with
    | false => exact .withheld rfl hd (by simp)
    | true =>
      exact .nothing (.inr ⟨rfl, hd⟩)
        (by simp [State.exchange, State.emit, State.raise, State.setStatus, excStatus])

/-- What the `SENDBYTES` exchange does (42_radio_port.md R227, 41_link_layer.md R200). -/
theorem sendBytes_eq (buf : List Byte) (s : State) :
    s.sendBytes buf =
      { s with trace := s.trace ++ [.portCall (.sendbytes buf) (.bool s.radio.sendbytesAnswer)],
               radio := s.radio.afterSendbytes,
               status := if s.radio.sendbytesAnswer then .ok else .sendError } := by
  unfold State.sendBytes
  cases s.radio.sendbytesAnswer <;> rfl

end Sys2Proof.Machine
end

