-- ==== Sys2Proof/Laws/Run.lean ====
section
/-! SUPPORT. Runs of several steps, that every instruction answers a next state, and what a host write leaves
alone. -/

namespace Sys2Proof.Machine

/-- A run whose first step answers goes on from the state it answers. -/
theorem steps_succ (n : Nat) {s t : State} (h : step s = .next t) : steps (n + 1) s = steps n t := by
  simp only [steps, h]

/-- `steps` is the host's `run` of the core. -/
theorem steps_eq_run (n : Nat) (s : State) : Host.Core.run Sys2Proof.core n s = steps n s := by
  induction n generalizing s with
  | zero => rfl
  | succ n ih =>
    have hs : Sys2Proof.core.step s = step s := rfl
    simp only [Host.Core.run, steps, hs]
    cases step s with
    | next t => exact ih t
    | fault f => rfl
    | refused r => rfl

/-- No instruction stops the machine. -/
theorem exec_next (i : Instr) (s : State) : ∃ t, exec i s = .next t := by
  cases i <;>
    simp only [exec, execEncAbs, execDecAbs, execEncRel, execDecRel, execInit, execSend, execRecv,
      execIllegal, execReset, execBringup, execSetfreq, execSetaddr, execSetpromisc, execSettxpower,
      execSendbytes, execRecvbytes, execFrameAbs, execFrameRel] <;>
    (try split_ifs) <;> exact ⟨_, rfl⟩

/-- A configured power is legal exactly when it lies in 5 to 23 (41_link_layer.md R185). -/
theorem cfgIllegal_eq_false (c : LinkCfg) :
    cfgIllegal c = false ↔ (c.txpEn = true → 5 ≤ sext 8 c.txp.toNat ∧ sext 8 c.txp.toNat ≤ 23) := by
  have h : txpLegal c.txp = true ↔ 5 ≤ sext 8 c.txp.toNat ∧ sext 8 c.txp.toNat ≤ 23 := by
    unfold txpLegal
    rw [Bool.and_eq_true, decide_eq_true_iff, decide_eq_true_iff]
    exact Iff.rfl
  rw [← h, cfgIllegal]
  cases c.txpEn <;> simp

/-- A host write either stores the low bits in one writable, unlocked register, or does nothing
(20_memory.md R100, 10_state.md R56, R62). -/
theorem hostWrite_cases (s : State) (n : BitVec 8) (v : Int) :
    (∃ r, regOf s.params.rxCap n = some r ∧ regWritable r = true ∧ (regIsCfg r = true → s.cfglock = false) ∧
      s.hostWrite n v = s.putReg r (tc (regWidth s.params r) v)) ∨
    ((∀ r, regOf s.params.rxCap n = some r → regWritable r = true → regIsCfg r = true ∧ s.cfglock = true) ∧
      s.hostWrite n v = s) := by
  unfold State.hostWrite
  cases regOf s.params.rxCap n with
  | none => exact .inr ⟨by simp, rfl⟩
  | some r =>
    by_cases h : (regWritable r && !(regIsCfg r && s.cfglock)) = true
    · have h' : regWritable r = true ∧ (regIsCfg r = true → s.cfglock = false) := by
        revert h; cases regWritable r <;> cases regIsCfg r <;> cases s.cfglock <;> simp
      exact .inl ⟨r, rfl, h'.1, h'.2, by simp only [h, if_true]⟩
    · refine .inr ⟨fun r' hr' hw => ?_, by simp only [h]; rfl⟩
      cases hr'
      simpa [hw] using h

/-- What a register store leaves alone. -/
theorem putReg_frame (s : State) (r : Reg) (p : Nat) :
    s.putReg r p =
      { s with ilat := (s.putReg r p).ilat, ilon := (s.putReg r p).ilon,
               iage := (s.putReg r p).iage, ihasfix := (s.putReg r p).ihasfix,
               rxb := (s.putReg r p).rxb, rxlen := (s.putReg r p).rxlen,
               cfg := (s.putReg r p).cfg, rxTmoEn := (s.putReg r p).rxTmoEn,
               rxTmo := (s.putReg r p).rxTmo } := by
  cases r <;> rfl

/-- What a host write leaves alone (20_memory.md R100, 10_state.md R56, R62). -/
theorem hostWrite_frame (s : State) (n : BitVec 8) (v : Int) :
    s.hostWrite n v =
      { s with ilat := (s.hostWrite n v).ilat, ilon := (s.hostWrite n v).ilon,
               iage := (s.hostWrite n v).iage, ihasfix := (s.hostWrite n v).ihasfix,
               rxb := (s.hostWrite n v).rxb, rxlen := (s.hostWrite n v).rxlen,
               cfg := (s.hostWrite n v).cfg, rxTmoEn := (s.hostWrite n v).rxTmoEn,
               rxTmo := (s.hostWrite n v).rxTmo } := by
  rcases hostWrite_cases s n v with ⟨r, -, -, -, h⟩ | ⟨-, h⟩ <;> rw [h]
  exact putReg_frame s r _

/-- A locked configuration is not written by the host (10_state.md R56). -/
theorem hostWrite_locked (s : State) (n : BitVec 8) (v : Int) (h : s.cfglock = true) :
    (s.hostWrite n v).cfg = s.cfg := by
  rcases hostWrite_cases s n v with ⟨r, -, -, hc, hx⟩ | ⟨-, hx⟩ <;> rw [hx]
  cases r <;> first | rfl | exact absurd (hc rfl) (by simp [h])

/-- The `RXB` indexes of the register map lie within the capacity (10_state.md R62). -/
theorem regOf_rxb (cap : Nat) (n : BitVec 8) (i : Nat) (h : regOf cap n = some (.rxb i)) : i < cap := by
  unfold regOf at h
  split at h <;> first | injection h with h; injection h | skip
  split_ifs at h with h1 h2
  · injection h with h; injection h
  · injection h with h; injection h with h; omega

/-- No register number reaches `RXB[192]` or beyond (20_memory.md R80, log 22). -/
theorem regOf_rxb_lt (cap : Nat) (n : BitVec 8) (i : Nat) (h : regOf cap n = some (.rxb i)) : i < 192 := by
  unfold regOf at h
  split at h <;> first | injection h with h; injection h | skip
  split_ifs at h with h1 h2
  · injection h with h; injection h
  · injection h with h; injection h with h; have := n.isLt; omega

/-- A script writes a byte whose register has a number (30_encoding.md R131). -/
theorem writeScript_cons {n : Nat} (h : n ≤ 0xFF) (b : Byte) (bs : List Byte) :
    writeScript n (b :: bs) = .write (BitVec.ofNat 8 n) b.toNat :: writeScript (n + 1) bs := if_pos h

/-- A script writes only numbers from its first to 0xFF, so the expansion of `LOADRX` issues no command
(20_memory.md R80, R102). -/
theorem mem_writeScript {n : Nat} {bs : List Byte} {op : HostOp} (h : op ∈ writeScript n bs) :
    ∃ k v, op = .write (BitVec.ofNat 8 k) v ∧ n ≤ k ∧ k ≤ 0xFF := by
  induction bs generalizing n with
  | nil => cases h
  | cons b bs ih =>
    by_cases hn : n ≤ 0xFF
    · rw [writeScript_cons hn, List.mem_cons] at h
      rcases h with rfl | h
      · exact ⟨n, _, rfl, le_rfl, hn⟩
      · obtain ⟨k, v, rfl, hk, hk'⟩ := ih h
        exact ⟨k, v, rfl, by omega, hk'⟩
    · rw [writeScript, if_neg hn] at h
      cases h

end Sys2Proof.Machine
end

