-- ==== Sys2Proof/Tests/Slice0.lean ====
section
/-! SUPPORT. The model's own tests: words written out from the encodings, the vectors of spec/95_test_vectors.md one
step each, well-formedness, and a witness for the hypotheses of every statement. Expected values come from the
spec, and each test names the vector. -/

namespace Sys2Proof.Tests

open Sys2Proof.Machine

/-! ## Helpers -/

/-- The default parameters with a boost pin that evaluates. -/
def params0 : Params := { Config.defaults with useBoostPin := false }

/-- The reset state of a unit with parameters `p`. -/
def base (p : Params) : State := { State.reset with params := p }

/-- A unit whose fix registers are written. -/
def fix (p : Params) (lat lon : Int) (has : Bool) (age : Int) : State :=
  { base p with ilat := tc 64 lat, ilon := tc 64 lon, ihasfix := has, iage := tc 32 age }

/-- A unit that holds received bytes. -/
def rx (p : Params) (bytes : List Byte) : State := (base p).loadRx bytes

/-- The configuration of vector I1. -/
def cfg1 : LinkCfg :=
  { addr := 1, freq := 0x4464C000, txpEn := true, txp := 23, resetPin := 4, csPin := 10, irqPin := 2 }

/-- A unit whose configuration registers are written. -/
def configured (c : LinkCfg) : State := { base params0 with cfg := c }

/-- A unit at a pc of the sequencer after an accepted `INIT`. -/
def running (l : LState) (k : BitVec 3) : State :=
  { configured cfg1 with lcfg := cfg1, cfglock := true, lstate := l, istep := k }

/-- A unit in `Ready` after the init block of vector I1. -/
def ready : State := { running .ready 0 with trace := initEvents cfg1 false true true }

/-- A unit in `Faulted` after a failed bring-up. -/
def faulted : State :=
  { running .faulted 0 with
    fcause := some .bringUp, status := .fatalInit, trace := initEvents cfg1 false false false }

/-- A part of the next state, if there is one. -/
def look {α : Type} (f : State → α) (r : Result) : Option α :=
  match r with
  | .next t => some (f t)
  | .fault _ => none
  | .refused _ => none

/-- The first `n` bytes of `TXB`, `TXLEN` and `STATUS`. -/
def txView (n : Nat) (t : State) : List Byte × BitVec 4 × Status := (t.txb.readBytes 0 n, t.txlen, t.status)

/-- The decoded fix and `STATUS`. -/
def fixView (t : State) : Int × Int × Nat × Status := (t.outLat, t.outLon, t.oage.toNat, t.status)

/-- The script of a `LOADRX` writes the registers 0x40 to 0xFF and no other (20_memory.md R80; log 22). -/
theorem test_loadRxScript_ends_at_the_last_number :
    writeScript 0xFF [7, 8] = [.write 0xFF 7] ∧ loadRxScript [7, 8] = [.write 0x40 7, .write 0x41 8, .write 0x0C 2] := by
  decide

/-! ## Well-formedness -/

theorem test_wf_illegal_refused : (Instr.illegal 0x01).wf = false ∧ (Instr.illegal 0x12).wf = false := by decide
theorem test_wf_illegal_accepted : (Instr.illegal 0x00).wf = true ∧ (Instr.illegal 0x13).wf = true := by decide
theorem test_wf_sendbytes_refused : (Instr.sendbytes (List.replicate 10 0)).wf = false := by decide
theorem test_wf_sendbytes_accepted : (Instr.sendbytes (List.replicate 9 0)).wf = true := by decide
theorem test_valid_refused :
    ¬ { params0 with coordDen := 1500000 }.Valid ∧ ¬ { params0 with rxCap := 8 }.Valid ∧
      ¬ { params0 with coordW := 35 }.Valid := by decide

/-! ## Decoding: one word for each row, written out from 30_encoding.md R112 to R116, R125 -/

theorem test_decode_encAbs : decode .le (.cmd 0b00000001) = .ok .encAbs := by decide
theorem test_decode_decAbs : decode .le (.cmd 0b00000010) = .ok .decAbs := by decide
theorem test_decode_encRel : decode .le (.cmd 0b00000011) = .ok .encRel := by decide
theorem test_decode_decRel : decode .le (.cmd 0b00000100) = .ok .decRel := by decide
theorem test_decode_init : decode .le (.cmd 0b00010000) = .ok .init := by decide
theorem test_decode_send : decode .le (.cmd 0b00010001) = .ok .send := by decide
theorem test_decode_recv : decode .le (.cmd 0b00010010) = .ok .recv := by decide
theorem test_decode_illegal : decode .le (.cmd 0b00000101) = .ok (.illegal 0x05) := by decide
theorem test_decode_reset : decode .le (.port 0b0000 [.byte 4]) = .ok (.reset 4) := by decide
theorem test_decode_bringup : decode .le (.port 0b0001 [.byte 10, .byte 2]) = .ok (.bringup 10 2) := by decide
theorem test_decode_setfreq : decode .le (.port 0b0010 [.word 0x4464C000]) = .ok (.setfreq 0x4464C000) := by decide
theorem test_decode_setaddr : decode .le (.port 0b0011 [.byte 1]) = .ok (.setaddr 1) := by decide
theorem test_decode_setpromisc : decode .le (.port 0b0100 [.bit false]) = .ok (.setpromisc false) := by decide
theorem test_decode_settxpower :
    decode .le (.port 0b0101 [.byte 23, .bit true]) = .ok (.settxpower 23 true) := by decide
theorem test_decode_sendbytes : decode .le (.port 0b0110 [.buf [0x3f, 0x58]]) = .ok (.sendbytes [0x3f, 0x58]) := by
  decide
theorem test_decode_recvbytes :
    decode .le (.port 0b0111 [.bit true, .word 1000]) = .ok (.recvbytes true 1000) := by decide
/-- Vector A1 under `BE`. -/
theorem test_decode_frameAbs :
    decode .be (.frame [0xf8, 0xa4, 0x32, 0xf4, 0x02, 0xae, 0xa5, 0x40, 0x0a]) =
      .ok (.frameAbs 0xF8A432F4 0x02AEA540 0x0a) := by rfl
/-- Vector ER2 under `LE`. -/
theorem test_decode_frameRel :
    decode .le (.frame [0x3f, 0x58, 0x7b, 0x00, 0x38, 0xfe, 0x02]) = .ok (.frameRel 0x007B 0xFE38 0x02) := by rfl
theorem test_decode_reserved_port : decode .le (.port 0x8 [.byte 0]) = .error (.reservedPortOp 0x8) := by decide
theorem test_decode_bad_arguments : decode .le (.port 0x1 [.byte 0]) = .error (.portArguments 0x1) := by decide
theorem test_decode_bad_length : decode .le (.frame [0x3f, 0x58, 0, 0, 0]) = .error (.frameLength 5) := by rfl
theorem test_decode_bad_magic : decode .le (.frame [0x58, 0x3f, 0, 0, 0, 0, 0]) = .error .frameMagic := by rfl
/-- A table word of nine bytes has its first byte least significant. -/
theorem test_table_word : decodeTableWord 72 0x0A02AEA540F8A432F4 = some (.frameAbs 0xF8A432F4 0x02AEA540 0x0a) := by
  rfl
/-- A placed word is the next instruction that runs. -/
theorem test_withFetchWord :
    look State.status (step (State.reset.withFetchWord 8 0x12)) = some .wrongState ∧
      look State.status (step (State.reset.withFetchWord 8 0x05)) = some .illegalCmd ∧
      look State.rxlen (step (State.reset.withFetchWord 72 0)) = some 9 := by
  exact ⟨rfl, rfl, rfl⟩

/-! ## The codec: vectors of 95_test_vectors.md 2.1 to 2.4 -/

/-- A3: a tie away from zero on both signs, age 300 clamped. -/
theorem test_encAbs_tie :
    look (txView 9) (exec .encAbs (fix params0 407859845 (-1192058405) true 300)) =
      some ([0x41, 0x58, 0x6e, 0x02, 0x2f, 0x10, 0xe5, 0xf8, 0xff], 9, .ok) := by decide
/-- A8: one above the field. -/
theorem test_encAbs_range :
    look (txView 9) (exec .encAbs (fix params0 21474836475 0 true 1)) =
      some (List.replicate 9 0, 0, .encRange) := by decide
/-- B3 under `BE`. -/
theorem test_decAbs_be :
    look fixView (exec .decAbs (rx { params0 with byteOrder := .be } [0xde, 0xad, 0xbe, 0xef, 1, 2, 3, 4, 5])) =
      some (-5590387370, 169090600, 5, .ok) := by decide
/-- B4: the ends of the field. -/
theorem test_decAbs_ends :
    look fixView (exec .decAbs (rx params0 [0xff, 0xff, 0xff, 0x7f, 0, 0, 0, 0x80, 1])) =
      some (21474836470, -21474836480, 1, .ok) := by decide
/-- ER6: the largest accepted difference, no fix. -/
theorem test_encRel_edge :
    look (txView 7) (exec .encRel (fix params0 411136549 (-1195335149) false 5)) =
      some ([0x3f, 0x58, 0xff, 0x7f, 0x01, 0x80, 0xff], 7, .ok) := by decide
/-- ER8: -32768 is refused, one axis is enough. -/
theorem test_encRel_range :
    look (txView 7) (exec .encRel (fix params0 407859800 (-1195335150) true 1)) =
      some (List.replicate 7 0, 0, .encRange) := by decide
/-- L3: 0x8000 is decoded, not refused. -/
theorem test_decRel_min :
    look fixView (exec .decRel (rx params0 [0x3f, 0x58, 0, 0x80, 0, 0x80, 0xff])) =
      some (404583000, -1195335200, 255, .ok) := by decide
/-- L12: the length is tested before the magic. -/
theorem test_decRel_length :
    look fixView (exec .decRel (rx params0 [0x3e, 0, 0, 0, 0])) = some (0, 0, 0, .badLength) := by decide
/-- 2.6: the ties of both rounding rules. -/
theorem test_rounding_ties :
    roundDiv .halfAwayFromZero (-25) 10 = -3 ∧ roundDiv .halfToEven (-25) 10 = -2 ∧
      roundDiv .halfToEven (-15) 10 = -2 ∧ roundDiv .halfToEven 5 10 = 0 ∧ roundDiv .halfAwayFromZero 4 10 = 0 := by
  decide
/-- The fields of ER2, presented (30_encoding.md R115). -/
theorem test_frameRel :
    look (fun t => (t.rxb.readBytes 0 7, t.rxlen)) (exec (.frameRel 0x007B 0xFE38 2) (base params0)) =
      some ([0x3f, 0x58, 0x7b, 0x00, 0x38, 0xfe, 0x02], 7) := by decide
/-- The fields of A1, presented (30_encoding.md R114). -/
theorem test_frameAbs :
    look (fun t => (t.rxb.readBytes 0 9, t.rxlen)) (exec (.frameAbs 0xF8A432F4 0x02AEA540 10) (base params0)) =
      some ([0xf4, 0x32, 0xa4, 0xf8, 0x40, 0xa5, 0xae, 0x02, 0x0a], 9) := by decide

/-! ## The link: vectors of 2.7 and 2.8 -/

/-- I8: a power of -5. -/
theorem test_init_invalid :
    look (fun t => (t.status, t.lstate, t.cfglock)) (exec .init (configured { cfg1 with txp := 0xFB })) =
      some (.cfgInvalid, .uninitialized, false) := by decide
/-- I10: a second `INIT`. -/
theorem test_init_again : look State.status (exec .init ready) = some .wrongState := by decide
/-- R187: the second half of the pulse. -/
theorem test_reset_high :
    look (fun t => (t.trace, t.rstLine, t.lstate, t.istep)) (exec (.reset 4) (running .resetting 1)) =
      some ([.rstLine 4 true, .delay .resetHigh], true, .initializing, 0) := by decide
/-- R186: the first half. -/
theorem test_reset_low :
    look (fun t => (t.trace, t.rstLine, t.lstate, t.istep)) (exec (.reset 4) (running .resetting 0)) =
      some ([.rstLine 4 false, .delay .resetLow], false, .resetting, 1) := by decide
/-- I3: a failed bring-up. -/
theorem test_bringup_false :
    look (fun t => (t.trace, t.lstate, t.status, t.fcause))
        (exec (.bringup 10 2) { running .initializing 0 with radio := { Radio.free with bringup := [false] } }) =
      some ([.portCall (.bringup 10 2) (.bool false)], .faulted, .fatalInit, some .bringUp) := by decide
/-- I4: a failed frequency-set. -/
theorem test_setfreq_false :
    look (fun t => (t.lstate, t.status, t.fcause))
        (exec (.setfreq 0x4464C000) { running .initializing 1 with radio := { Radio.free with setfreq := [false] } }) =
      some (.faulted, .fatalInit, some .setFreq) := by decide
theorem test_setaddr :
    look (fun t => (t.trace, t.istep)) (exec (.setaddr 1) (running .initializing 2)) =
      some ([.portCall (.setaddr 1) .none], 3) := by decide
theorem test_setpromisc :
    look (fun t => (t.trace, t.istep)) (exec (.setpromisc false) (running .initializing 3)) =
      some ([.portCall (.setpromisc false) .none], 4) := by decide
theorem test_settxpower :
    look (fun t => (t.trace, t.lstate, t.status)) (exec (.settxpower 23 false) (running .initializing 4)) =
      some ([.portCall (.settxpower 23 false) .none], .ready, .ok) := by decide
/-- T2: the peripheral does not take the buffer. -/
theorem test_send_false :
    look (fun t => (t.trace.drop 9, t.status, t.txlen, t.lstate))
        (exec .send { (ready.putTx [0x3f, 0x58, 0x7b, 0, 0x38, 0xfe, 2]) with
          radio := { Radio.free with sendbytes := [false] } }) =
      some ([.portCall (.sendbytes [0x3f, 0x58, 0x7b, 0, 0x38, 0xfe, 2]) (.bool false)], .sendError, 7, .ready) := by
  decide
/-- T4: the empty buffer. -/
theorem test_sendbytes_empty :
    look (fun t => (t.trace.drop 9, t.status))
        (exec (.sendbytes []) { ready with radio := { Radio.free with sendbytes := [true] } }) =
      some ([.portCall (.sendbytes []) (.bool true)], .ok) := by decide
/-- T10: twenty bytes are cut at `RX_CAP`, the length is kept. -/
theorem test_recv_long :
    look (fun t => (t.rxb.readBytes 14 3, t.rxlen, t.status))
        (exec .recv { ready with
          rxTmoEn := true
          radio := { Radio.free with recvbytes := [.bytes ((List.range 20).map (BitVec.ofNat 8))] } }) =
      some ([14, 15, 0], 20, .ok) := by decide
/-- T7: no data. -/
theorem test_recvbytes_nothing :
    look (fun t => (t.trace, t.rxlen, t.rxb.read 0, t.status))
        (exec (.recvbytes true 1000) { rx params0 [9, 9] with radio := { Radio.free with recvbytes := [.nothing] } }) =
      some ([.portCall (.recvbytes true 1000) .nothing], 0, 9, .receiveError) := by decide
/-- T12: without a timeout the command goes on waiting. -/
theorem test_recv_waits :
    look (fun t => (t.rxWait, t.idle, t.status))
        (exec .recv { ready with radio := { Radio.free with recvbytes := [.withheld] } }) =
      some (true, false, .ok) := by decide
/-- X1. -/
theorem test_illegal : look State.status (exec (.illegal 0x00) ready) = some .illegalCmd := by decide
/-- R205: the first blink drives the indicator to 1. -/
theorem test_blink :
    look (fun t => (t.ind, t.trace.drop 5)) (step faulted) = some (true, [.indToggle true, .delay .blink]) := by decide

/-! ## The host: vectors of 2.9 -/

/-- X3: the low eight bits of the value select the command. -/
theorem test_command_wide :
    look State.txlen (step { base params0 with host := [.write 0x00 0x101] }) = some 9 := by decide
/-- X8 and X9: the low bits are kept. -/
theorem test_write_low_bits :
    ((base params0).hostWrite 0x07 3).hostRead 0x07 = 1 ∧ ((base params0).hostWrite 0x0C 0x109).hostRead 0x0C = 9 := by
  decide
/-- X5 and X6: read-only registers. -/
theorem test_write_read_only :
    ((base params0).hostWrite 0x20 0xAA).hostRead 0x20 = 0 ∧ ((base params0).hostWrite 0x08 1).hostRead 0x08 = 0 ∧
      ((base params0).hostWrite 0x01 7).hostRead 0x01 = 0 := by decide
/-- X4 and X7: `CMD` and reserved numbers. -/
theorem test_read_reserved :
    ready.hostRead 0x00 = 0 ∧ ready.hostRead 0x17 = 0 ∧ ready.hostRead 0x29 = 0 ∧ ready.hostRead 0x3F = 0 ∧
      ready.hostRead 0x50 = 0 := by decide
/-- After I1: the configuration is locked. -/
theorem test_write_locked : (ready.hostWrite 0x0D 9).hostRead 0x0D = 1 := by decide
/-- P1: the pattern of a negative longitude. -/
theorem test_write_negative : ((base params0).hostWrite 0x05 (-1192104000)).hostRead 0x05 = 0xFFFFFFFFB8F1EFC0 := by
  decide

/-! ## Witnesses: for each statement with hypotheses, something that meets them -/

theorem witness_RoundingFollowsTheRationalRule :
    0 < 10 ∧ (-5 / 10 : ℚ) = ((-5 : Int) : ℚ) / ((10 : Nat) : ℚ) ∧ |(4 / 10 : ℚ) - ((0 : Int) : ℚ)| < 1 / 2 := by
  norm_num

theorem witness_TwosComplementIsExactInRange :
    1 ≤ 16 ∧ -((2 ^ (16 - 1) : Nat) : Int) ≤ -32768 ∧ (32767 : Int) < ((2 ^ (16 - 1) : Nat) : Int) ∧
      (32768 : Nat) < 2 ^ 16 := by norm_num

theorem witness_FieldBytesFollowTheByteOrder :
    (3 : Nat) < 4 ∧ (0xF8A432F4 : Nat) < 2 ^ (8 * 4) := by norm_num

theorem witness_AgeByteIsClamped :
    (255 : Int) ≤ 255 ∧ (-1 : Int) < 0 ∧ ((0 : Int) ≤ 0 ∧ (0 : Int) ≤ 254) ∧ ((0 : Int) ≤ 254 ∧ (254 : Int) ≤ 254) := by
  norm_num

theorem witness_DecodeOfEncodeIsTheInstruction :
    (Instr.frameRel 0x8000 0x7fff 255).wf = true ∧ (Instr.illegal 0xff).wf = true := by decide

theorem witness_EncodeOfDecodeIsTheCode :
    decode .be (.frame [0x3f, 0x58, 0x80, 0, 0x7f, 0xff, 255]) = .ok (.frameRel 0x8000 0x7fff 255) := by rfl

/-- A7 fits at both ends of the field; A8 does not fit, under either policy. -/
theorem witness_EncAbsWritesTheAbsoluteFrame :
    Memory.wf (base params0).txb = true ∧
      toAbs params0 (fix params0 21474836470 (-21474836480) true 1).inLat = 2147483647 ∧
      toAbs params0 (fix params0 21474836470 (-21474836480) true 1).inLon = -2147483648 ∧
      params0.rangePolicy = .fault ∧
      toAbs params0 (fix params0 21474836475 0 true 1).inLat = 2147483648 ∧
      { params0 with rangePolicy := .wrap }.rangePolicy = .wrap := by decide

/-- ER5 fits at both ends; ER7 and ER8 do not. -/
theorem witness_EncRelWritesTheRelativeFrame :
    Memory.wf (base params0).txb = true ∧
      toRel params0 (fix params0 411136500 0 true 1).inLat params0.refLatQ = 32767 ∧
      toRel params0 (fix params0 0 (-1195335100) true 1).inLon params0.refLonQ = -32767 ∧
      params0.rangePolicy = .fault ∧
      toRel params0 (fix params0 411136550 0 true 1).inLat params0.refLatQ = 32768 ∧
      toRel params0 (fix params0 0 (-1195335150) true 1).inLon params0.refLonQ = -32768 := by decide

theorem witness_DecAbsReadsTheAbsoluteFrame :
    (rx params0 (List.replicate 9 0)).rxlen = 9#8 ∧ params0.Valid ∧ (rx params0 (List.replicate 8 0)).rxlen ≠ 9#8 ∧
      (rx params0 (List.replicate 10 0)).rxlen ≠ 9#8 := by decide

theorem witness_DecRelReadsTheRelativeFrame :
    (rx params0 (List.replicate 6 0)).rxlen ≠ 7#8 ∧ (rx params0 (List.replicate 8 0)).rxlen ≠ 7#8 ∧
      (rx params0 [0x3f, 0x59, 0, 0, 0, 0, 0]).rxlen = 7#8 ∧
      ¬ ((rx params0 [0x3f, 0x59, 0, 0, 0, 0, 0]).rxb.read 0 = 0x3f#8 ∧
        (rx params0 [0x3f, 0x59, 0, 0, 0, 0, 0]).rxb.read 1 = 0x58#8) ∧
      (rx params0 [0x3f, 0x58, 0, 0, 0, 0, 0]).rxlen = 7#8 ∧
      (rx params0 [0x3f, 0x58, 0, 0, 0, 0, 0]).rxb.read 0 = 0x3f#8 ∧
      (rx params0 [0x3f, 0x58, 0, 0, 0, 0, 0]).rxb.read 1 = 0x58#8 ∧ params0.Valid := by decide

/-- The sending unit of A3, the frame it writes, and a receiving unit that holds it. -/
def absSent : State := fix params0 407859845 (-1192058405) true 300
def absFrame : List Byte := [0x41, 0x58, 0x6e, 0x02, 0x2f, 0x10, 0xe5, 0xf8, 0xff]
/-- The sending unit of ER6 and its frame. -/
def relSent : State := fix params0 411136549 (-1195335149) false 5
def relFrame : List Byte := [0x3f, 0x58, 0xff, 0x7f, 0x01, 0x80, 0xff]

theorem exec_absSent : exec .encAbs absSent = .next (absSent.putTx absFrame) := by rfl
theorem exec_relSent : exec .encRel relSent = .next (relSent.putTx relFrame) := by rfl

/-- Both disjuncts of the policy hypothesis, and the divisibility of A1. -/
theorem witness_AbsoluteRoundTrip :
    absSent.params.Valid ∧ Memory.wf absSent.txb = true ∧ absSent.params.rangePolicy = .fault ∧
      (fitsAbs (toAbs absSent.params absSent.inLat) = true ∧ fitsAbs (toAbs absSent.params absSent.inLon) = true) ∧
      exec .encAbs absSent = .next (absSent.putTx absFrame) ∧ (absSent.putTx absFrame).status = .ok ∧
      (rx params0 absFrame).params = absSent.params ∧ (rx params0 absFrame).rxlen = 9#8 ∧
      (rx params0 absFrame).rxb.readBytes 0 9 = (absSent.putTx absFrame).txb.readBytes 0 9 ∧
      ((qAbs params0 : Int) ∣ (fix params0 (-1234567800) 450000000 true 10).inLat) :=
  ⟨by decide, rfl, rfl, by decide, exec_absSent, rfl, rfl, rfl, by decide, by decide⟩

theorem witness_RelativeRoundTrip :
    relSent.params.Valid ∧ Memory.wf relSent.txb = true ∧ relSent.params.rangePolicy = .fault ∧
      exec .encRel relSent = .next (relSent.putTx relFrame) ∧ (relSent.putTx relFrame).status = .ok ∧
      (rx params0 relFrame).params = relSent.params ∧ (rx params0 relFrame).rxlen = 7#8 ∧
      (rx params0 relFrame).rxb.readBytes 0 7 = (relSent.putTx relFrame).txb.readBytes 0 7 ∧
      ((qRel params0 : Int) ∣ (fix params0 407872100 0 true 2).inLat - params0.refLatQ) :=
  ⟨by decide, rfl, rfl, exec_relSent, rfl, rfl, rfl, by decide, by decide⟩

/-- A unit with another register unit, another width, other policies and the same reference in degrees. -/
def params1 : Params :=
  { params0 with
    coordDen := 1000000, coordW := 40, round := .halfToEven, rangePolicy := .wrap
    refLatQ := 40785980, refLonQ := -119205840 }

theorem witness_FramesCrossBetweenUnits :
    params0.Valid ∧ params1.Valid ∧ Memory.wf absSent.txb = true ∧ params0.rangePolicy = .fault ∧
      params1.byteOrder = params0.byteOrder ∧
      (params1.refLatQ : ℚ) / params1.coordDen = (params0.refLatQ : ℚ) / params0.coordDen ∧
      (params1.refLonQ : ℚ) / params1.coordDen = (params0.refLonQ : ℚ) / params0.coordDen ∧
      (absSent.putTx absFrame).status = .ok ∧ exec .encAbs absSent = .next (absSent.putTx absFrame) ∧
      (rx params1 absFrame).rxlen = 9#8 ∧
      (rx params1 absFrame).rxb.readBytes 0 9 = (absSent.putTx absFrame).txb.readBytes 0 9 ∧
      exec .encRel relSent = .next (relSent.putTx relFrame) ∧ (rx params1 relFrame).rxlen = 7#8 ∧
      (rx params1 relFrame).rxb.readBytes 0 7 = (relSent.putTx relFrame).txb.readBytes 0 7 :=
  ⟨by decide, by decide, rfl, rfl, rfl, by norm_num [params0, params1, Config.defaults],
    by norm_num [params0, params1, Config.defaults], rfl, exec_absSent, rfl, by decide, exec_relSent, rfl, by decide⟩

theorem witness_AlteredMagicIsRejected :
    (rx params0 [0x3e, 0x58, 0, 0, 0, 0, 0]).rxlen = 7#8 ∧
      ((rx params0 [0x3e, 0x58, 0, 0, 0, 0, 0]).rxb.read 0, (rx params0 [0x3e, 0x58, 0, 0, 0, 0, 0]).rxb.read 1) ≠
        (0x3f#8, 0x58#8) := by decide

theorem witness_SentinelSurvivesTheRoundTrip :
    Memory.wf absSent.txb = true ∧ age8 absSent.ihasfix (sext absSent.params.ageW absSent.iage) = 255#8 ∧
      (absSent.putTx absFrame).status = .ok ∧ exec .encAbs absSent = .next (absSent.putTx absFrame) ∧
      age8 relSent.ihasfix (sext relSent.params.ageW relSent.iage) = 255#8 ∧
      exec .encRel relSent = .next (relSent.putTx relFrame) :=
  ⟨rfl, by decide, rfl, exec_absSent, by decide, exec_relSent⟩

theorem witness_RelativeOffsetsNeverWrap :
    Memory.wf relSent.txb = true ∧ relSent.params.rangePolicy = .fault := by decide

/-- Two units that differ in the link and the trace. -/
theorem witness_CodecDependsOnItsOperandsAlone :
    Instr.decRel ∈ [Instr.encAbs, .decAbs, .encRel, .decRel] ∧
      (ready.params, ready.ilat, ready.ilon, ready.iage, ready.ihasfix, ready.rxlen, ready.rxb) =
        ((base params0).params, (base params0).ilat, (base params0).ilon, (base params0).iage, (base params0).ihasfix,
          (base params0).rxlen, (base params0).rxb) ∧
      (ready.txb, ready.txlen, ready.olat, ready.olon, ready.oage) =
        ((base params0).txb, (base params0).txlen, (base params0).olat, (base params0).olon, (base params0).oage) ∧
      ready.lstate ≠ (base params0).lstate := ⟨by decide, rfl, rfl, by decide⟩

theorem witness_FrameRowsCarryTheirFields :
    (base params0).params.Valid ∧ Memory.wf (base params0).rxb = true := by decide

/-- The legal powers 5 and 23, the illegal 4 and 24, and no power at all. -/
theorem witness_InitIsAcceptedOrRefused :
    ready.lstate ≠ .uninitialized ∧ (configured cfg1).lstate = .uninitialized ∧ cfg1.txpEn = true ∧
      ¬ (5 ≤ sext 8 (4#8).toNat ∧ sext 8 (4#8).toNat ≤ 23) ∧ ¬ (5 ≤ sext 8 (24#8).toNat ∧ sext 8 (24#8).toNat ≤ 23) ∧
      (5 ≤ sext 8 (5#8).toNat ∧ sext 8 (5#8).toNat ≤ 23) ∧ (5 ≤ sext 8 (23#8).toNat ∧ sext 8 (23#8).toNat ≤ 23) ∧
      { cfg1 with txpEn := false }.txpEn = false := by decide

theorem witness_ResetPulseDrivesTheLineLowThenHigh :
    (running .resetting 0).resetReq = false ∧ (running .resetting 0).lstate = .resetting ∧
      (running .resetting 0).istep = 0 ∧ (running .resetting 1).istep = 1 := by decide

theorem witness_BringupContinuesOrFails :
    (running .initializing 0).resetReq = false ∧ (running .initializing 0).lstate = .initializing ∧
      (running .initializing 0).istep = 0 ∧ (running .initializing 0).radio.bringup = [] ∧
      { Radio.free with bringup := [false] }.bringup = false :: [] := by decide

theorem witness_SetfreqContinuesOrFails :
    (running .initializing 1).resetReq = false ∧ (running .initializing 1).lstate = .initializing ∧
      (running .initializing 1).istep = 1 ∧ (running .initializing 1).radio.setfreq = [] ∧
      { Radio.free with setfreq := [true] }.setfreq = true :: [] := by decide

theorem witness_AddressThenPromiscuousOff :
    (running .initializing 2).resetReq = false ∧ (running .initializing 2).lstate = .initializing ∧
      (running .initializing 2).istep = 2 ∧ (running .initializing 3).istep = 3 := by decide

theorem witness_PowerThenReady :
    (running .initializing 4).resetReq = false ∧ (running .initializing 4).lstate = .initializing ∧
      (running .initializing 4).istep = 4 ∧ (running .initializing 4).lcfg.txpEn = true ∧
      { running .initializing 4 with lcfg := { cfg1 with txpEn := false } }.lcfg.txpEn = false := by decide

/-- The three pairs of answers. -/
theorem witness_InitIsOneBigStep :
    (configured cfg1).resetReq = false ∧ (configured cfg1).lstate = .uninitialized ∧ (configured cfg1).idle = true ∧
      (configured cfg1).fcause = none ∧
      cfgIllegal (configured cfg1).cfg = false ∧
      false = { Radio.free with bringup := [false] }.bringupAnswer ∧
      true = { Radio.free with bringup := [true], setfreq := [false] }.bringupAnswer ∧
      false = { Radio.free with bringup := [true], setfreq := [false] }.afterBringup.setfreqAnswer ∧
      true = { Radio.free with bringup := [true], setfreq := [true] }.afterBringup.setfreqAnswer := by decide

theorem witness_SendHandsOverTheFrame :
    (base params0).lstate ≠ .ready ∧ ready.lstate = .ready ∧ ready.radio.sendbytes = [] ∧
      { Radio.free with sendbytes := [true] }.sendbytes = true :: [] := by decide

theorem witness_RecvStoresWhatIsDelivered :
    Memory.wf ready.rxb = true ∧ (base params0).lstate ≠ .ready ∧ ready.lstate = .ready ∧
      { Radio.free with recvbytes := [.bytes [1, 2, 3]] }.recvbytesDraw = .bytes [1, 2, 3] ∧
      { Radio.free with recvbytes := [.nothing] }.recvbytesDraw = .nothing := by decide

theorem witness_UnansweredRecvWaits :
    ready.resetReq = false ∧ ready.lstate = .ready ∧ ready.rxTmoEn = false ∧
      { Radio.free with recvbytes := [.withheld, .withheld, .nothing] }.recvbytes =
        List.replicate (1 + 1) .withheld ++ [.nothing] ∧
      { ready with rxTmoEn := true }.rxTmoEn = true := by decide

/-- The answers of `RECVBYTES`, the empty sequence and one longer than `RX_CAP` among them. -/
theorem witness_DataExchangesComplete :
    Memory.wf (base params0).rxb = true ∧ { Radio.free with sendbytes := [false] }.sendbytes = false :: [] ∧
      (base params0).radio.sendbytes = [] ∧ { Radio.free with recvbytes := [.bytes []] }.recvbytesDraw = .bytes [] ∧
      { Radio.free with recvbytes := [.bytes (List.replicate 17 1)] }.recvbytesDraw = .bytes (List.replicate 17 1) ∧
      { Radio.free with recvbytes := [.nothing] }.recvbytesDraw = .nothing ∧
      { Radio.free with recvbytes := [.withheld] }.recvbytesDraw = .withheld := by decide

/-- A `RECV` that waits, with each answer. -/
theorem witness_WaitingRecvEndsWithItsAnswer :
    Inv { ready with rxWait := true } ∧ ready.resetReq = false ∧
      (∀ d ∈ [RecvDraw.bytes [], .bytes (List.replicate 17 1), .nothing, .withheld],
        { Radio.free with recvbytes := [d] }.recvbytesDraw = d) := by
  refine ⟨?_, by decide, by decide⟩
  constructor <;> decide

/-- Both halves of the pulse, and the answers. -/
theorem witness_PortOperationsRecordTheirExchange :
    (running .resetting 1).lstate = .resetting ∧ (running .resetting 1).istep = 1 ∧
      ¬ ((running .resetting 0).lstate = .resetting ∧ (running .resetting 0).istep = 1) ∧
      true = { Radio.free with bringup := [true] }.bringupAnswer ∧
      false = { Radio.free with setfreq := [false] }.setfreqAnswer := by decide

theorem witness_FaultedBlinksForEver :
    faulted.resetReq = false ∧ faulted.lstate = .faulted ∧ faulted.istep = 0 := by decide

theorem witness_ReadyIsNeverLeft : ready.resetReq = false ∧ ready.lstate = .ready := by decide

/-- The rows of the transition table: one state for each. -/
theorem witness_LinkStateFollowsTheTable :
    (∃ t, step { configured cfg1 with host := [.write 0x00 0x10] } = .next t ∧ t.lstate = .resetting) ∧
      (∃ t, step (running .resetting 1) = .next t ∧ t.lstate = .initializing) ∧
      (∃ t, step { running .initializing 0 with radio := { Radio.free with bringup := [false] } } = .next t ∧
        t.lstate = .faulted) ∧
      (∃ t, step { running .initializing 1 with radio := { Radio.free with setfreq := [false] } } = .next t ∧
        t.lstate = .faulted) ∧
      (∃ t, step (running .initializing 4) = .next t ∧ t.lstate = .ready) ∧
      (∃ t, step { faulted with resetReq := true } = .next t ∧ t.lstate = .uninitialized) :=
  ⟨⟨_, rfl, rfl⟩, ⟨_, rfl, rfl⟩, ⟨_, rfl, rfl⟩, ⟨_, rfl, rfl⟩, ⟨_, rfl, rfl⟩, ⟨_, rfl, rfl⟩⟩

/-- Every command answers a next state. -/
theorem witness_CommandsRaiseOnlyTheirExceptions :
    (∃ t, exec .encAbs ready = .next t) ∧ (∃ t, exec .encRel ready = .next t) ∧ (∃ t, exec .decAbs ready = .next t) ∧
      (∃ t, exec .decRel ready = .next t) ∧ (∃ t, exec .init ready = .next t) ∧ (∃ t, exec .send ready = .next t) ∧
      (∃ t, exec .recv ready = .next t) ∧ (∃ t, exec (.illegal 0) ready = .next t) :=
  ⟨⟨_, rfl⟩, ⟨_, rfl⟩, ⟨_, rfl⟩, ⟨_, rfl⟩, ⟨_, rfl⟩, ⟨_, rfl⟩, ⟨_, rfl⟩, ⟨_, rfl⟩⟩

theorem witness_StepRunsTheIssuedCommand :
    { ready with host := [.write 0x00 0x111] }.resetReq = false ∧ { ready with host := [.write 0x00 0x111] }.idle = true ∧
      Instr.send.wf = true ∧ encode ready.params.byteOrder .send = .cmd 0x11 ∧ tc 8 0x111 = (0x11#8).toNat := by decide

/-- A frame, and bytes that are none: fewer than a frame, more than `RX_CAP`, more than `RXLEN` can count. -/
theorem witness_StepPresentsFrames :
    { ready with host := [.loadRx relFrame] }.resetReq = false ∧ { ready with host := [.loadRx relFrame] }.idle = true ∧
      (Instr.frameRel 0x7fff 0x8001 255).wf = true ∧
      encode ready.params.byteOrder (.frameRel 0x7fff 0x8001 255) = .frame relFrame ∧
      ∀ n ∈ [0, 3, 17, 256], ∀ i, encode ready.params.byteOrder i ≠ .frame (List.replicate n 1) := by
  refine ⟨rfl, rfl, rfl, by decide, fun n hn i h => ?_⟩
  cases i <;> simp [encode] at h
  · have := congrArg List.length h; simp at this; simp [← this] at hn
  · have := congrArg List.length h; simp at this; simp [← this] at hn

theorem witness_ReservedCommandBytesAreIllegal :
    ready.resetReq = false ∧ ready.idle = true ∧
      (∀ b ∈ [0x00#8, 0x05#8, 0x0f#8, 0x13#8, 0xff#8],
        b ∉ [0x01#8, 0x02#8, 0x03#8, 0x04#8, 0x10#8, 0x11#8, 0x12#8]) := by decide

/-- A writable register, a locked one, a reserved number. -/
theorem witness_HostWriteChangesOneRegister :
    ready.resetReq = false ∧ ready.idle = true ∧ Memory.wf ready.rxb = true ∧ (0x4F#8 : BitVec 8) ≠ 0 ∧
      regOf ready.params.rxCap 0x4F = some (.rxb 15) ∧ regOf ready.params.rxCap 0x50 = none ∧
      regOf ready.params.rxCap 0x28 = some (.txb 8) ∧ regOf ready.params.rxCap 0x29 = none ∧
      regOf ready.params.rxCap 0x13 = some .cfgIrqPin ∧ ready.cfglock = true ∧
      regOf 300 0xFF = some (.rxb 191) := by decide

theorem witness_HostReadHasNoSideEffect :
    { ready with host := [.read 0x02, .read 0x02] }.resetReq = false ∧
      { ready with host := [.read 0x02, .read 0x02] }.idle = true ∧
      regOf ready.params.rxCap 0x02 = some .lstate ∧ regOf ready.params.rxCap 0x00 = some .cmd ∧
      regOf ready.params.rxCap 0x17 = none := by decide

/-- An idle block, a waiting one and a busy one. -/
theorem witness_HostIsBlockedWhileTheBlockIsBusy :
    ready.resetReq = false ∧ (∃ t, step ready = .next t) ∧ ready.idle = true ∧
      (running .initializing 2).idle = false ∧ (∃ t, step (running .initializing 2) = .next t) ∧
      { ready with rxWait := true }.idle = false :=
  ⟨rfl, ⟨_, rfl⟩, rfl, rfl, ⟨_, rfl⟩, rfl⟩

theorem witness_LoadRxIsItsExpansion :
    ready.resetReq = false ∧ ready.idle = true ∧ (List.replicate 16 (1 : Byte)).length ≤ ready.params.rxCap ∧
      (List.replicate 16 (1 : Byte)).length ≤ 192 := by decide

theorem witness_InstructionsWriteOnlyTheirRegisters : ∃ t, exec .decAbs (rx params0 absFrame) = .next t := ⟨_, rfl⟩

/-- The invariant of a unit in `Ready` with a command to come. -/
theorem inv_ready : Inv { ready with host := [.write 0x00 0x12] } := by
  constructor <;> decide

theorem inv_faulted : Inv faulted := by
  constructor <;> decide

theorem witness_LockedConfigurationStays :
    Inv { ready with host := [.write 0x00 0x12] } ∧ ready.cfglock = true ∧ ready.resetReq = false ∧
      ∃ t, step { ready with host := [.write 0x00 0x12] } = .next t :=
  ⟨inv_ready, rfl, rfl, ⟨_, rfl⟩⟩

theorem witness_TraceOnlyGrows : ready.resetReq = false ∧ ∃ t, step ready = .next t := ⟨rfl, ⟨_, rfl⟩⟩

/-- A step that issues the power operation: the new event is there. -/
theorem witness_IssuedPortOperationsAreLegal :
    Inv (running .initializing 4) ∧
      ∃ t, step (running .initializing 4) = .next t ∧
        Event.portCall (.settxpower 23 false) .none ∈ t.trace.drop (running .initializing 4).trace.length := by
  refine ⟨?_, _, rfl, by decide⟩
  constructor <;> decide

theorem witness_ResetLeavesTheGivenValues : { faulted with resetReq := true }.resetReq = true := by decide

theorem witness_StepKeepsTheInvariant :
    Inv { ready with host := [.write 0x00 0x12] } ∧ ∃ t, step { ready with host := [.write 0x00 0x12] } = .next t :=
  ⟨inv_ready, ⟨_, rfl⟩⟩

theorem witness_NothingStopsTheMachine : Inv faulted := inv_faulted

theorem witness_StepKeepsTheTraceOrder :
    Inv { ready with host := [.write 0x00 0x12] } ∧ TraceOrder { ready with host := [.write 0x00 0x12] } ∧
      ∃ t, step { ready with host := [.write 0x00 0x12] } = .next t :=
  ⟨inv_ready, ⟨[], by decide, rfl⟩, ⟨_, rfl⟩⟩

/-- The steps that issue `BRINGUP` and `SETFREQ`. -/
theorem witness_BringupAndSetfreqAreIssuedOnce :
    ∀ k ∈ [0, 1], ∃ u, u = { running .initializing k with trace := (initEvents cfg1 false true true).take (4 + k.toNat) } ∧
      Inv u ∧ TraceOrder u ∧ ∃ t, step u = .next t := by
  intro k hk
  simp only [List.mem_cons, List.not_mem_nil, or_false] at hk
  rcases hk with rfl | rfl
  · exact ⟨_, rfl, by constructor <;> decide, rfl, ⟨_, rfl⟩⟩
  · exact ⟨_, rfl, by constructor <;> decide, rfl, ⟨_, rfl⟩⟩

end Sys2Proof.Tests
end

section
/-! PROOF. The statements of 00_scope.md: numbers and byte order (R26 to R28), and what the machine does next
(R31, R35). Their lemmas stand before them. -/

namespace Sys2Proof.Machine

/-! ### What the exchanges and the host's accesses leave unchanged -/

section Frames

variable (s : State)

@[simp] theorem sendBytes_lstate (buf : List Byte) : (s.sendBytes buf).lstate = s.lstate := by rw [sendBytes_eq]
@[simp] theorem sendBytes_istep (buf : List Byte) : (s.sendBytes buf).istep = s.istep := by rw [sendBytes_eq]
@[simp] theorem sendBytes_host (buf : List Byte) : (s.sendBytes buf).host = s.host := by rw [sendBytes_eq]

/-- What a `RECVBYTES` exchange leaves alone, however it is answered (42_radio_port.md R228). -/
theorem recvBytes_frame (e : Bool) (m : Word) :
    s.recvBytes e m =
      { s with trace := (s.recvBytes e m).trace, radio := (s.recvBytes e m).radio,
               rxb := (s.recvBytes e m).rxb, rxlen := (s.recvBytes e m).rxlen,
               status := (s.recvBytes e m).status, rxWait := (s.recvBytes e m).rxWait } := by
  cases recvBytes_cases e m s with
  | withheld _ _ ht | nothing _ ht | bytes _ _ ht => rw [ht]

@[simp] theorem recvBytes_lstate (e : Bool) (m : Word) : (s.recvBytes e m).lstate = s.lstate := by
  rw [recvBytes_frame]
@[simp] theorem recvBytes_istep (e : Bool) (m : Word) : (s.recvBytes e m).istep = s.istep := by
  rw [recvBytes_frame]
@[simp] theorem recvBytes_host (e : Bool) (m : Word) : (s.recvBytes e m).host = s.host := by
  rw [recvBytes_frame]
@[simp] theorem recvBytes_hostReads (e : Bool) (m : Word) : (s.recvBytes e m).hostReads = s.hostReads := by
  rw [recvBytes_frame]

@[simp] theorem loadRx_lstate (bs : List Byte) : (s.loadRx bs).lstate = s.lstate := rfl
@[simp] theorem loadRx_istep (bs : List Byte) : (s.loadRx bs).istep = s.istep := rfl
@[simp] theorem loadRx_host (bs : List Byte) : (s.loadRx bs).host = s.host := rfl

@[simp] theorem hostWrite_lstate (n : BitVec 8) (v : Int) : (s.hostWrite n v).lstate = s.lstate := by
  rw [hostWrite_frame]
@[simp] theorem hostWrite_istep (n : BitVec 8) (v : Int) : (s.hostWrite n v).istep = s.istep := by
  rw [hostWrite_frame]
@[simp] theorem hostWrite_host (n : BitVec 8) (v : Int) : (s.hostWrite n v).host = s.host := by
  rw [hostWrite_frame]

end Frames

/-- A command takes nothing from the host's queue: the access that issued it is gone already. -/
theorem commanded_host {b : Byte} {s t : State} (h : Commanded b s t) : t.host = s.host := by
  cases h with
  | raised _ _ ht | encoded _ _ ht | decoded _ _ _ ht | accepted _ _ _ ht | sent _ ht | received _ ht =>
    subst ht; simp

/-! ### The pc (10_state.md R61) -/

theorem pcLegal_resetting (k : BitVec 3) : pcLegal .resetting k = true ↔ k = 0 ∨ k = 1 := by
  revert k; decide

theorem pcLegal_initializing (k : BitVec 3) :
    pcLegal .initializing k = true ↔ k = 0 ∨ k = 1 ∨ k = 2 ∨ k = 3 ∨ k = 4 := by
  revert k; decide

theorem pcLegal_faulted (k : BitVec 3) : pcLegal .faulted k = true ↔ k = 0 := decide_eq_true_iff

/-- A command leaves the pc where it is, or an `INIT` is accepted and it goes to `(Resetting, 0)`. -/
theorem commanded_keeps_pcLegal {b : Byte} {s t : State} (h : Commanded b s t)
    (hp : pcLegal s.lstate s.istep = true) : pcLegal t.lstate t.istep = true := by
  cases h with
  | raised e he ht => rw [ht, raise_returned s e he]; exact hp
  | encoded _ _ ht | decoded _ _ _ ht | sent _ ht | received _ ht => subst ht; simpa using hp
  | accepted _ _ _ ht => subst ht; rfl

/-- The pc takes only the values of R61: every step keeps it among them. -/
theorem step_keeps_pcLegal {s t : State} (h : step s = .next t) (hp : pcLegal s.lstate s.istep = true) :
    pcLegal t.lstate t.istep = true := by
  cases step_cases h with
  | reset _ ht | pulseLow _ _ _ ht | pulseHigh _ _ _ ht | broughtUp _ _ _ _ ht | bringupFailed _ _ _ _ ht
  | freqSet _ _ _ _ ht | setfreqFailed _ _ _ _ ht | addrSet _ _ _ ht | promiscOff _ _ _ ht
  | powerSet _ _ _ _ ht | noPower _ _ _ _ ht => subst ht; rfl
  | command _ _ _ _ _ ht => exact commanded_keeps_pcLegal (exec_command ht) hp
  | blinked _ _ _ ht | waited _ _ _ ht | nothing _ _ _ ht | written _ _ _ _ _ _ _ ht | read _ _ _ _ _ ht
  | presented _ _ _ _ _ ht => subst ht; simpa using hp

/-! ### Every step answers -/

/-- With the block idle the host's next access is taken, and with none left nothing happens. -/
theorem step_idle_next (s : State) (hr : s.resetReq = false) (hi : s.idle = true) :
    ∃ t, step s = .next t ∧ t.host = s.host.tail := by
  match hh : s.host with
  | [] => exact ⟨_, step_idle_nil s hr hi hh, hh⟩
  | .write n v :: rest =>
    by_cases hn : n = 0
    · subst hn
      obtain ⟨t, ht⟩ := exec_next (issued v) { s with host := rest }
      exact ⟨t, (step_idle_command s v rest hr hi hh).trans ht, commanded_host (exec_command ht)⟩
    · exact ⟨_, step_idle_write s n v rest hr hi hh hn, hostWrite_host ..⟩
  | .read n :: rest => exact ⟨_, step_idle_read s n rest hr hi hh, rfl⟩
  | .loadRx bytes :: rest => exact ⟨_, step_idle_loadRx s bytes rest hr hi hh, rfl⟩

/-- In `Uninitialized` and `Ready` a step answers: a waiting `RECV` tries again, or the host has its turn. -/
theorem step_hostState_next (s : State) (hr : s.resetReq = false)
    (hl : s.lstate = .uninitialized ∨ s.lstate = .ready) : ∃ t, step s = .next t := by
  cases hw : s.rxWait with
  | true => exact ⟨_, step_wait s hr hl hw⟩
  | false =>
    obtain ⟨t, ht, -⟩ := step_idle_next s hr ((idle_iff s).2 ⟨hl, hw⟩)
    exact ⟨t, ht⟩

/-- At a pc of R61 some rule enables a step, and no instruction stops the machine. -/
theorem step_next_of_pcLegal (s : State) (hp : pcLegal s.lstate s.istep = true) : ∃ t, step s = .next t := by
  cases hr : s.resetReq with
  | true => exact ⟨_, step_reset s hr⟩
  | false =>
    cases hl : s.lstate <;> rw [hl] at hp
    case uninitialized => exact step_hostState_next s hr (.inl hl)
    case ready => exact step_hostState_next s hr (.inr hl)
    case faulted => exact ⟨_, step_blink s hr hl ((pcLegal_faulted _).1 hp)⟩
    case resetting =>
      rcases (pcLegal_resetting _).1 hp with hk | hk
      · rw [step_resetting_zero s hr hl hk]; exact exec_next ..
      · rw [step_resetting_one s hr hl hk]; exact exec_next ..
    case initializing =>
      rcases (pcLegal_initializing _).1 hp with hk | hk | hk | hk | hk
      · rw [step_bringup s hr hl hk]; exact exec_next ..
      · rw [step_setfreq s hr hl hk]; exact exec_next ..
      · rw [step_setaddr s hr hl hk]; exact exec_next ..
      · rw [step_setpromisc s hr hl hk]; exact exec_next ..
      · cases ht : s.lcfg.txpEn with
        | true => rw [step_settxpower s hr hl hk ht]; exact exec_next ..
        | false => exact ⟨_, step_initDone s hr hl hk ht⟩

/-- A property under which a step answers, and which that step keeps, makes every run safe. -/
theorem safeFor_of_invariant {P : State → Prop} (hnext : ∀ s, P s → ∃ t, step s = .next t)
    (hkeep : ∀ s t, P s → step s = .next t → P t) (n : Nat) (s : State) (hs : P s) : SafeFor n s := by
  induction n generalizing s with
  | zero => exact ⟨s, rfl⟩
  | succ n ih =>
    obtain ⟨t, ht⟩ := hnext s hs
    obtain ⟨u, hu⟩ := ih t (hkeep s t hs ht)
    exact ⟨u, (steps_succ n ht).trans hu⟩

/-- Settles O50, from the pc clause of the invariant alone: it is kept by every step, and a step answers under it. -/
theorem nothingStopsTheMachine : Obligations.NothingStopsTheMachine := fun n s hs =>
  safeFor_of_invariant (P := fun s => pcLegal s.lstate s.istep = true) step_next_of_pcLegal
    (fun _ _ hp h => step_keeps_pcLegal h hp) n s hs.pc

/-! ### The host has a step exactly when the block is idle (10_state.md R63) -/

/-- While the block is busy a step touches neither the host's queue nor what the host has read. -/
theorem step_busy_host {s t : State} (hr : s.resetReq = false) (hi : s.idle = false) (h : step s = .next t) :
    t.host = s.host ∧ t.hostReads = s.hostReads := by
  cases step_cases h with
  | reset hr' => rw [hr] at hr'; cases hr'
  | pulseLow _ _ _ ht | pulseHigh _ _ _ ht | broughtUp _ _ _ _ ht | bringupFailed _ _ _ _ ht
  | freqSet _ _ _ _ ht | setfreqFailed _ _ _ _ ht | addrSet _ _ _ ht | promiscOff _ _ _ ht
  | powerSet _ _ _ _ ht | noPower _ _ _ _ ht | blinked _ _ _ ht | waited _ _ _ ht => subst ht; simp
  | nothing _ hi' | command _ _ _ hi' | written _ _ _ _ hi' | read _ _ _ hi' | presented _ _ _ hi' =>
    rw [hi] at hi'; cases hi'

/-- Settles O41: the idle block takes one access, and the busy one leaves the host alone. -/
theorem hostIsBlockedWhileTheBlockIsBusy : Obligations.HostIsBlockedWhileTheBlockIsBusy := by
  refine fun s t hr h => ⟨fun hi => ?_, fun hi => step_busy_host hr hi h⟩
  obtain ⟨u, hu, hhost⟩ := step_idle_next s hr hi
  obtain rfl : u = t := by rw [hu] at h; injection h
  exact hhost

/-! ### Two's complement (00_scope.md R26) -/

/-- Settles O2, from the laws of `tc` and `sext`. -/
theorem twosComplementIsExactInRange : Obligations.TwosComplementIsExactInRange := by
  refine fun n hn => ⟨fun v => ⟨tc_cast n v, fun hv => sext_tc n v hn hv.1 hv.2⟩, fun p hp => ?_⟩
  obtain ⟨hlo, hhi⟩ := sext_range n p hn hp
  exact ⟨rfl, hlo, hhi, tc_sext n p hp⟩

/-! ### Rounding over the exact rational (00_scope.md R27) -/

/-- The distance of `n / d` from an integer is that of the integers over the denominator, divided by it. -/
theorem abs_div_sub_eq (n z : Int) {d : Nat} (hd : 0 < d) :
    |(n : ℚ) / d - z| = ((|z * d - n| : Int) : ℚ) / d := by
  have hd' : (0 : ℚ) < d := by exact_mod_cast hd
  have e : (n : ℚ) / d - z = -(((z * d - n : Int) : ℚ) / d) := by push_cast; field_simp; ring
  rw [e, abs_neg, abs_div, abs_of_pos hd', Int.cast_abs]

/-- Both rules give an integer within half of the exact quotient. -/
theorem abs_div_sub_roundDiv_le (m : RoundMode) (n : Int) {d : Nat} (hd : 0 < d) :
    |(n : ℚ) / d - (roundDiv m n d : ℚ)| ≤ 1 / 2 := by
  have hd' : (0 : ℚ) < d := by exact_mod_cast hd
  have h : ((2 * |roundDiv m n d * d - n| : Int) : ℚ) ≤ ((d : Int) : ℚ) :=
    Int.cast_le.2 (roundDiv_bound m n d hd)
  push_cast at h
  rw [abs_div_sub_eq n _ hd, div_le_iff₀ hd']
  push_cast
  linarith

/-- Half away from zero is `sign(q) * floor(|q| + 1/2)`. -/
theorem roundDiv_halfAwayFromZero (n : Int) {d : Nat} (hd : 0 < d) :
    roundDiv .halfAwayFromZero n d = (SignType.sign ((n : ℚ) / d) : ℤ) * ⌊|(n : ℚ) / d| + 1 / 2⌋ := by
  have hd' : (0 : ℚ) < d := by exact_mod_cast hd
  have hsign : SignType.sign ((n : ℚ) / d) = SignType.sign n := by
    rw [div_eq_mul_inv, sign_mul, sign_pos (inv_pos.2 hd'), mul_one, sign_intCast]
  have habs : |(n : ℚ) / d| + 1 / 2 = ((2 * n.natAbs + d : Nat) : ℚ) / ((2 * d : Nat) : ℚ) := by
    push_cast
    rw [abs_div, abs_of_pos hd', Nat.cast_natAbs, Int.cast_abs]
    field_simp
  rw [hsign, habs, Rat.floor_natCast_div_natCast, ← Int.sign_eq_sign]
  rfl

/-- Half to even is even at a tie: the two nearest integers are the floor and its successor, and the rule takes the
even one. -/
theorem roundDiv_halfToEven_tie (n : Int) {d : Nat} (hd : 0 < d)
    (h : 2 * |roundDiv .halfToEven n d * d - n| = d) : roundDiv .halfToEven n d % 2 = 0 := by
  have hdm := Int.mul_ediv_add_emod n d
  have hr0 := Int.emod_nonneg n (show (d : Int) ≠ 0 by omega)
  have hrd := Int.emod_lt_of_pos n (show (0 : Int) < d by omega)
  have hfloor : n / d * d - n = -(n % d) := by linarith [mul_comm (d : Int) (n / d)]
  have hceil : (n / d + 1) * d - n = d - n % d := by linarith
  simp only [roundDiv] at h ⊢
  split_ifs at h ⊢ with hlt hgt heven
  · rw [hfloor, abs_neg, abs_of_nonneg hr0] at h; omega
  · rw [hceil, abs_of_nonneg (by omega)] at h; omega
  · exact heven
  · omega

/-- An integer within half of a number is the one integer nearer than half to it, if there is such a one. -/
theorem eq_of_abs_sub_lt_half {q : ℚ} {y z : Int} (hy : |q - y| ≤ 1 / 2) (hz : |q - z| < 1 / 2) : y = z := by
  have h : |((y - z : Int) : ℚ)| < 1 := by
    push_cast
    calc |(y : ℚ) - z| ≤ |(y : ℚ) - q| + |q - z| := abs_sub_le ..
      _ < 1 := by rw [abs_sub_comm (y : ℚ) q]; linarith
  rw [← Int.cast_abs] at h
  have := Int.abs_lt_one_iff.1 (by exact_mod_cast h : |y - z| < 1)
  omega

/-- Settles O1, clause by clause from the lemmas on `roundDiv`. -/
theorem roundingFollowsTheRationalRule : Obligations.RoundingFollowsTheRationalRule := by
  rintro n d _ hd rfl
  refine ⟨roundDiv_halfAwayFromZero n hd, abs_div_sub_roundDiv_le _ n hd, fun htie => ?_,
    fun m z hz => eq_of_abs_sub_lt_half (abs_div_sub_roundDiv_le m n hd) hz⟩
  have hd' : (0 : ℚ) < d := by exact_mod_cast hd
  rw [abs_div_sub_eq n _ hd, div_eq_iff hd'.ne'] at htie
  have htie' : ((2 * |roundDiv .halfToEven n d * d - n| : Int) : ℚ) = ((d : Int) : ℚ) := by
    push_cast at htie ⊢
    linarith
  exact roundDiv_halfToEven_tie n hd (by exact_mod_cast htie')

/-! ### Byte order (00_scope.md R28) -/

/-- Byte `i` of the little-endian bytes. -/
theorem getElem?_bytesLe {n i : Nat} (p : Nat) (hi : i < n) :
    (bytesLe n p)[i]? = some (BitVec.ofNat 8 (p / 2 ^ (8 * i))) := by
  induction n generalizing i p with
  | zero => omega
  | succ n ih =>
    cases i with
    | zero => simp [bytesLe]
    | succ i =>
      rw [bytesLe, List.getElem?_cons_succ, ih _ (by omega), Nat.div_div_eq_div_mul, Nat.mul_succ, Nat.pow_add,
        Nat.mul_comm]

/-- Settles O3, from the byte positions and the round trips of `bytesN` and `wordN`. -/
theorem fieldBytesFollowTheByteOrder : Obligations.FieldBytesFollowTheByteOrder := by
  refine ⟨fun n p i hi => ⟨getElem?_bytesLe p hi, ?_⟩, fun bo n p hp => ?_, bytesN_wordN⟩
  · have hlen := length_bytesLe n p
    rw [bytesN, List.getElem?_reverse (by omega), hlen]
    exact getElem?_bytesLe p (by omega)
  · exact wordN_bytesN bo n p (by rwa [show (256 : Nat) = 2 ^ 8 by norm_num, ← pow_mul])

end Sys2Proof.Machine
end

section
/-! PROOF. The statements of 10_state.md on reset and the invariant (R46 to R48, R52 to R56, R59 to R61, R64). Their
lemmas stand before them. -/

namespace Sys2Proof.Machine

/-! ### Reset (10_state.md R64) -/

/-- Settles O47, from what a step does with the reset line up. -/
theorem resetLeavesTheGivenValues : Obligations.ResetLeavesTheGivenValues := fun s hr =>
  ⟨s.hardReset, step_reset s hr, rfl, rfl, rfl, rfl, rfl, rfl, rfl, rfl, rfl, rfl, rfl, rfl, rfl, rfl⟩

/-- A reset gives the invariant whatever stood before: only the parameters are taken over. -/
theorem inv_hardReset {s : State} (hp : s.params.Valid) : Inv s.hardReset where
  params := hp
  widths := ⟨Nat.two_pow_pos _, Nat.two_pow_pos _, Nat.two_pow_pos _, Nat.two_pow_pos _, Nat.two_pow_pos _⟩
  txb := ⟨rfl, rfl⟩
  rxb := ⟨rfl, rfl⟩
  txlen := .inl rfl
  pc := rfl
  fcause := iff_of_true rfl nofun
  status := iff_of_false nofun nofun
  lock := iff_of_false nofun fun hl => hl rfl
  power := nofun
  wait := nofun
  rstLine := iff_of_false nofun nofun
  ind := fun _ => rfl

/-- Settles O48: the state after reset is the reset of itself. -/
theorem invariantHoldsAtReset : Obligations.InvariantHoldsAtReset :=
  inv_hardReset (s := State.reset) defaults_valid

/-- Settles O51: the trace is empty. -/
theorem traceOrderHoldsAtReset : Obligations.TraceOrderHoldsAtReset := rfl

/-! ### The named operations keep the invariant -/

section InvariantRules

variable {s : State}

/-- The agents outside the block and the trace are in no clause. -/
theorem Inv.agents (h : Inv s) (q : List HostOp) (l : List Nat) (r : Radio) (es : List Event) :
    Inv { s with host := q, hostReads := l, radio := r, trace := es } := { h with }

theorem Inv.emit (h : Inv s) (es : List Event) : Inv (s.emit es) := h.agents s.host s.hostReads s.radio _

theorem Inv.exchange (h : Inv s) (op : Instr) (a : Answer) (r : Radio) : Inv (s.exchange op a r) :=
  h.agents s.host s.hostReads r _

/-- A command that ends gives a `STATUS` other than `FATAL_INIT`, and no command runs in `Faulted`. -/
theorem Inv.setStatus (h : Inv s) (hl : s.lstate ≠ .faulted) {c : Status} (hc : c ≠ .fatalInit) :
    Inv (s.setStatus c) :=
  { h with status := iff_of_false hc hl }

theorem excStatus_ne_fatalInit {e : Exc} (he : ∀ c, e ≠ .fatalInit c) : excStatus e ≠ .fatalInit := by
  cases e with
  | fatalInit c => exact absurd rfl (he c)
  | _ => decide

/-- A returned exception (60_exceptions.md R240): `STATUS`, and perhaps one of the lengths. -/
theorem Inv.raise_returned (h : Inv s) (hl : s.lstate ≠ .faulted) {e : Exc} (he : ∀ c, e ≠ .fatalInit c) :
    Inv (s.raise e) := by
  rw [Machine.raise_returned s e he]
  refine { h.setStatus hl (excStatus_ne_fatalInit he) with txlen := ?_ }
  by_cases hx : e = .encRange
  · exact .inl (if_pos hx)
  · simpa only [if_neg hx] using h.txlen

theorem Inv.putTx (h : Inv s) (hl : s.lstate ≠ .faulted) {bs : List Byte} (hb : bs.length = 9 ∨ bs.length = 7) :
    Inv (s.putTx bs) :=
  { h.setStatus hl (c := .ok) (by decide) with
    txb := txb_putTx s bs (by omega) h.txb
    txlen := by rcases hb with hb | hb <;> simp [hb] }

theorem Inv.putFix (h : Inv s) (hl : s.lstate ≠ .faulted) (lat lon : Int) (age : Byte) :
    Inv (s.putFix lat lon age) := by
  obtain ⟨hilat, hilon, hiage, -, -⟩ := h.widths
  exact { h.setStatus hl (c := .ok) (by decide) with widths := ⟨hilat, hilon, hiage, tc_lt .., tc_lt ..⟩ }

theorem Inv.putRx (h : Inv s) (bs : List Byte) (n : Nat) : Inv (s.putRx bs n) :=
  { h with rxb := rxb_putRx s bs n h.rxb }

/-- The data exchanges run in `Ready` only. -/
theorem Inv.sendBytes (h : Inv s) (hl : s.lstate = .ready) (buf : List Byte) : Inv (s.sendBytes buf) := by
  have hf : s.lstate ≠ .faulted := by simp [hl]
  have hx := h.exchange (.sendbytes buf) (.bool s.radio.sendbytesAnswer) s.radio.afterSendbytes
  unfold State.sendBytes
  dsimp only
  split_ifs
  · exact hx.setStatus hf (c := .ok) nofun
  · exact hx.raise_returned hf (e := .sendError) nofun

/-- A `RECVBYTES` that begins a wait has no timeout, so the wait is one that the invariant admits. -/
theorem Inv.recvBytes (h : Inv s) (hl : s.lstate = .ready) (m : Word) : Inv (s.recvBytes s.rxTmoEn m) := by
  have hf : s.lstate ≠ .faulted := by simp [hl]
  cases recvBytes_cases s.rxTmoEn m s with
  | withheld he _ ht => rw [ht]; exact { h with wait := fun _ => ⟨hl, he⟩ }
  | nothing _ ht =>
    rw [ht]
    exact { h.setStatus hf (c := .receiveError) (by decide) with wait := fun hw => absurd hw (by simp) }
  | bytes l _ ht =>
    rw [ht]
    exact { (h.putRx l (min l.length 255)).setStatus hf (c := .ok) (by decide) with
      wait := fun hw => absurd hw (by simp) }

/-- A stored pattern of the register's width keeps the invariant. The wait speaks of `RX_TMO_EN`, so the store needs
a block with no `RECV` in execution; `CFG_*` and the other registers are in no clause. -/
theorem Inv.putReg (h : Inv s) (hw : s.rxWait = false) {n : BitVec 8} {r : Reg}
    (hr : regOf s.params.rxCap n = some r) {p : Nat} (hp : p < 2 ^ regWidth s.params r) : Inv (s.putReg r p) := by
  obtain ⟨hilat, hilon, hiage, holat, holon⟩ := h.widths
  cases r with
  | ilat => exact { h with widths := ⟨hp, hilon, hiage, holat, holon⟩ }
  | ilon => exact { h with widths := ⟨hilat, hp, hiage, holat, holon⟩ }
  | iage => exact { h with widths := ⟨hilat, hilon, hp, holat, holon⟩ }
  | rxTmoEn => exact { h with wait := fun hw' => absurd (hw'.symm.trans hw) (by simp) }
  | rxb i =>
    exact { h with
      rxb := ⟨wfFrom_write _ h.rxb.1 (Nat.zero_le i), below_write _ h.rxb.2 (regOf_rxb _ n i hr)⟩ }
  | _ => exact { h with }

theorem Inv.hostWrite (h : Inv s) (hw : s.rxWait = false) (n : BitVec 8) (v : Int) : Inv (s.hostWrite n v) := by
  rcases hostWrite_cases s n v with ⟨r, hr, -, -, hx⟩ | ⟨-, hx⟩ <;> rw [hx]
  · exact h.putReg hw hr (tc_lt ..)
  · exact h

/-- An accepted `INIT` (41_link_layer.md R185) locks a configuration whose power is legal. -/
theorem Inv.accept (h : Inv s) (hl : s.lstate = .uninitialized) (hw : s.rxWait = false)
    (hc : cfgIllegal s.cfg = false) :
    Inv (({ s with lcfg := s.cfg, cfglock := true } : State).setPc .resetting 0) :=
  { h with
    pc := rfl
    fcause := by simpa [hl] using h.fcause
    status := by simpa [hl] using h.status
    lock := by simp
    power := fun _ => hc
    wait := fun hw' => absurd (hw'.symm.trans hw) (by simp)
    rstLine := by simpa [hl] using h.rstLine
    ind := fun _ => h.ind (by simp [hl]) }

/-- The blink step of `Faulted` (41_link_layer.md R205). -/
theorem Inv.blink (h : Inv s) (hl : s.lstate = .faulted) : Inv s.blink :=
  { h with ind := fun hn => absurd hl hn }

/-- While `INIT` runs it moves the pc on and drives the reset line (41_link_layer.md R186 to R192): the locked
configuration, the wait and the clauses on `Faulted` stay as they are. -/
theorem Inv.advance (h : Inv s) (hl : s.lstate = .resetting ∨ s.lstate = .initializing) (l : LState) (k : BitVec 3)
    (line : Bool) (hu : l ≠ .uninitialized) (hf : l ≠ .faulted) (hpc : pcLegal l k = true)
    (hline : line = false ↔ l = .resetting ∧ k = 1) :
    Inv (({ s with rstLine := line } : State).setPc l k) := by
  have hsf : s.lstate ≠ .faulted := by rcases hl with hl | hl <;> simp [hl]
  have hsu : s.lstate ≠ .uninitialized := by rcases hl with hl | hl <;> simp [hl]
  have hsr : s.lstate ≠ .ready := by rcases hl with hl | hl <;> simp [hl]
  exact { h with
    pc := hpc
    fcause := iff_of_true (h.fcause.2 hsf) hf
    status := iff_of_false (mt h.status.1 hsf) hf
    lock := iff_of_true (h.lock.2 hsu) hu
    wait := fun hw => absurd (h.wait hw).1 hsr
    rstLine := hline
    ind := fun _ => h.ind hsf }

/-- Past the pulse the reset line is high and stays so (41_link_layer.md R187). -/
theorem Inv.leave (h : Inv s) (hl : s.lstate = .initializing) {l : LState} {k : BitVec 3} (hu : l ≠ .uninitialized)
    (hf : l ≠ .faulted) (hr : l ≠ .resetting) (hpc : pcLegal l k = true) : Inv (s.setPc l k) := by
  have hline : s.rstLine ≠ false := mt h.rstLine.1 (by simp [hl])
  exact h.advance (.inr hl) l k s.rstLine hu hf hpc (iff_of_false hline fun hx => hr hx.1)

theorem Inv.nextMicroStep (h : Inv s) (hl : s.lstate = .initializing) {k : BitVec 3}
    (hk : pcLegal .initializing k = true) : Inv (s.setPc .initializing k) :=
  h.leave hl nofun nofun nofun hk

theorem Inv.initDone (h : Inv s) (hl : s.lstate = .initializing) : Inv s.initDone :=
  (h.setStatus (by simp [hl]) (c := .ok) nofun).leave hl nofun nofun nofun rfl

/-- A false answer to `BRINGUP` or `SETFREQ` is fatal (60_exceptions.md R245). -/
theorem Inv.raise_fatal (h : Inv s) (hl : s.lstate = .initializing) (c : InitCause) :
    Inv (s.raise (.fatalInit c)) :=
  { h with
    pc := rfl
    fcause := iff_of_false nofun fun hf => hf rfl
    status := iff_of_true rfl rfl
    lock := iff_of_true (h.lock.2 (by simp [hl])) nofun
    wait := fun hw => absurd (h.wait hw).1 (by simp [hl])
    rstLine := iff_of_false (mt h.rstLine.1 (by simp [hl])) nofun
    ind := fun hf => absurd rfl hf }

end InvariantRules

/-- A command issued while the block is idle keeps the invariant. -/
theorem commanded_keeps_inv {b : Byte} {s t : State} (h : Inv s) (hi : s.idle = true) (hc : Commanded b s t) :
    Inv t := by
  obtain ⟨hl, hw⟩ := (idle_iff s).1 hi
  have hf : s.lstate ≠ .faulted := by rcases hl with hl | hl <;> simp [hl]
  cases hc with
  | raised e he ht => exact ht ▸ h.raise_returned hf he
  | encoded bs hb ht => exact ht ▸ h.putTx hf hb
  | decoded lat lon age ht => exact ht ▸ h.putFix hf lat lon age
  | accepted _ hl hc ht => exact ht ▸ h.accept hl hw hc
  | sent hl ht => exact ht ▸ h.sendBytes hl _
  | received hl ht => exact ht ▸ h.recvBytes hl _

/-- Settles O49: each step is one of the operations above. -/
theorem stepKeepsTheInvariant : Obligations.StepKeepsTheInvariant := by
  intro s t h hstep
  cases step_cases hstep with
  | reset _ ht => exact ht ▸ inv_hardReset h.params
  | pulseLow _ hl _ ht =>
    exact ht ▸ (h.emit _).advance (.inl hl) .resetting 1 false nofun nofun rfl (by simp)
  | pulseHigh _ hl _ ht =>
    exact ht ▸ (h.emit _).advance (.inl hl) .initializing 0 true nofun nofun rfl (by simp)
  | broughtUp _ hl _ _ ht | freqSet _ hl _ _ ht | addrSet _ hl _ ht | promiscOff _ hl _ ht =>
    exact ht ▸ (h.exchange _ _ _).nextMicroStep hl rfl
  | bringupFailed _ hl _ _ ht | setfreqFailed _ hl _ _ ht => exact ht ▸ (h.exchange _ _ _).raise_fatal hl _
  | powerSet _ hl _ _ ht => exact ht ▸ (h.exchange _ _ _).initDone hl
  | noPower _ hl _ _ ht => exact ht ▸ h.initDone hl
  | blinked _ hl _ ht => exact ht ▸ h.blink hl
  | waited _ _ hw ht => exact ht ▸ h.recvBytes (h.wait hw).1 _
  | nothing _ _ _ ht => exact ht ▸ h
  | command _ rest _ hi _ ht =>
    exact commanded_keeps_inv (h.agents rest s.hostReads s.radio s.trace) hi (exec_command ht)
  | written n v rest _ hi _ _ ht =>
    exact ht ▸ (h.agents rest s.hostReads s.radio s.trace).hostWrite ((idle_iff s).1 hi).2 n v
  | read _ rest _ _ _ ht => exact ht ▸ h.agents rest _ s.radio s.trace
  | presented bs rest _ _ _ ht => exact ht ▸ (h.agents rest s.hostReads s.radio s.trace).putRx bs bs.length

end Sys2Proof.Machine
end

section
/-! PROOF. The other statements of 10_state.md: who writes which register (R41 to R46, R48, R56, R58) and the host's
register accesses (R62; 20_memory.md R86, R100, R101). Their lemmas stand before them. -/

namespace Sys2Proof.Machine

/-! ### Who writes what (20_memory.md R85) -/

/-- What the fatal exception writes (60_exceptions.md R245). -/
theorem raise_fatal_eq (s : State) (c : InitCause) :
    s.raise (.fatalInit c) = { s with status := .fatalInit, lstate := .faulted, istep := 0, fcause := some c } := rfl

/-- What the end of `INIT` writes (41_link_layer.md R192). -/
theorem initDone_eq (s : State) : s.initDone = { s with status := .ok, lstate := .ready, istep := 0 } := rfl

/-- What an instruction can do, by the registers it owns. -/
inductive Executed (i : Instr) (s t : State) : Prop
  | sequenced (ht : t = { s with lstate := t.lstate, istep := t.istep, status := t.status, fcause := t.fcause,
                                 rstLine := t.rstLine, trace := t.trace, radio := t.radio })
  | encoded (hi : i = .encAbs ∨ i = .encRel)
      (ht : t = { s with txb := t.txb, txlen := t.txlen, status := t.status })
  | decoded (hi : i = .decAbs ∨ i = .decRel) (lat lon : Int) (age : Byte) (ht : t = s.putFix lat lon age)
  | accepted (hi : i = .init) (ht : t = ({ s with lcfg := s.cfg, cfglock := true } : State).setPc .resetting 0)
  | received (e : Bool) (m : Word) (hi : i = .recv ∨ i = .recvbytes e m) (ht : t = s.recvBytes e m)
  | presented (bs : List Byte) (hi : i.format = .abs ∨ i.format = .rel) (ht : t = s.loadRx bs)

/-- The inversion lemma of `exec`. -/
theorem exec_cases {i : Instr} {s t : State} (h : exec i s = .next t) : Executed i s t := by
  cases i with
  | encAbs =>
    simp only [exec, execEncAbs] at h
    split_ifs at h <;> cases h <;> exact .encoded (.inl rfl) rfl
  | encRel =>
    simp only [exec, execEncRel] at h
    split_ifs at h <;> cases h <;> exact .encoded (.inr rfl) rfl
  | decAbs =>
    simp only [exec, execDecAbs] at h
    split_ifs at h <;> cases h
    · exact .sequenced rfl
    · exact .decoded (.inl rfl) _ _ _ rfl
  | decRel =>
    simp only [exec, execDecRel] at h
    split_ifs at h <;> cases h
    · exact .sequenced rfl
    · exact .sequenced rfl
    · exact .decoded (.inr rfl) _ _ _ rfl
  | init =>
    simp only [exec, execInit] at h
    split_ifs at h <;> cases h
    · exact .sequenced rfl
    · exact .sequenced rfl
    · exact .accepted rfl rfl
  | send =>
    simp only [exec, execSend, sendBytes_eq] at h
    split_ifs at h <;> cases h <;> exact .sequenced rfl
  | recv =>
    simp only [exec, execRecv] at h
    split_ifs at h <;> cases h
    · exact .sequenced rfl
    · exact .received _ _ (.inl rfl) rfl
  | reset pin =>
    simp only [exec, execReset] at h
    split_ifs at h <;> cases h <;> exact .sequenced rfl
  | bringup _ _ | setfreq _ =>
    simp only [exec, execBringup, execSetfreq, raise_fatal_eq] at h
    split_ifs at h <;> cases h <;> exact .sequenced rfl
  | setaddr _ | setpromisc _ | settxpower _ _ | illegal _ =>
    simp only [exec, execSetaddr, execSetpromisc, execSettxpower, initDone_eq, execIllegal] at h
    cases h; exact .sequenced rfl
  | sendbytes buf =>
    simp only [exec, execSendbytes, sendBytes_eq] at h
    cases h; exact .sequenced rfl
  | recvbytes e m => cases h; exact .received e m (.inr rfl) rfl
  | frameAbs _ _ _ => cases h; exact .presented _ (.inl rfl) rfl
  | frameRel _ _ _ => cases h; exact .presented _ (.inr rfl) rfl

/-- Settles O43, outcome by outcome. -/
theorem instructionsWriteOnlyTheirRegisters : Obligations.InstructionsWriteOnlyTheirRegisters := by
  intro i s t h
  cases exec_cases h with
  | sequenced ht =>
    rw [ht]; exact ⟨rfl, .inr rfl, .inr (.inr rfl), .inr (.inr (.inr (.inr rfl))), .inr rfl⟩
  | encoded hi ht =>
    rw [ht]; exact ⟨rfl, .inr rfl, hi.imp_right .inl, .inr (.inr (.inr (.inr rfl))), .inr rfl⟩
  | decoded hi _ _ _ ht =>
    rw [ht]; exact ⟨rfl, .inl ⟨hi, rfl⟩, .inr (.inr rfl), .inr (.inr (.inr (.inr rfl))), .inr rfl⟩
  | accepted hi ht =>
    rw [ht]; exact ⟨rfl, .inr rfl, .inr (.inr rfl), .inr (.inr (.inr (.inr rfl))), .inl hi⟩
  | received e m hi ht =>
    rw [ht, recvBytes_frame]
    exact ⟨rfl, .inr rfl, .inr (.inr rfl), hi.imp_right fun hi => .inl ⟨e, m, hi⟩, .inr rfl⟩
  | presented _ hi ht =>
    rw [ht]
    exact ⟨rfl, .inr rfl, .inr (.inr rfl), .inr (.inr (hi.imp_right .inl)), .inr rfl⟩

/-! ### The locked configuration (10_state.md R56) -/

section Frames

variable (s : State)

@[simp] theorem sendBytes_params (buf : List Byte) : (s.sendBytes buf).params = s.params := by rw [sendBytes_eq]
@[simp] theorem sendBytes_cfg (buf : List Byte) : (s.sendBytes buf).cfg = s.cfg := by rw [sendBytes_eq]
@[simp] theorem sendBytes_lcfg (buf : List Byte) : (s.sendBytes buf).lcfg = s.lcfg := by rw [sendBytes_eq]
@[simp] theorem sendBytes_cfglock (buf : List Byte) : (s.sendBytes buf).cfglock = s.cfglock := by rw [sendBytes_eq]
@[simp] theorem sendBytes_trace (buf : List Byte) : (s.sendBytes buf).trace =
    s.trace ++ [Event.portCall (.sendbytes buf) (.bool s.radio.sendbytesAnswer)] := by rw [sendBytes_eq]

@[simp] theorem recvBytes_params (e : Bool) (m : Word) : (s.recvBytes e m).params = s.params := by
  rw [recvBytes_frame]
@[simp] theorem recvBytes_cfg (e : Bool) (m : Word) : (s.recvBytes e m).cfg = s.cfg := by rw [recvBytes_frame]
@[simp] theorem recvBytes_lcfg (e : Bool) (m : Word) : (s.recvBytes e m).lcfg = s.lcfg := by rw [recvBytes_frame]
@[simp] theorem recvBytes_cfglock (e : Bool) (m : Word) : (s.recvBytes e m).cfglock = s.cfglock := by
  rw [recvBytes_frame]

@[simp] theorem hostWrite_params (n : BitVec 8) (v : Int) : (s.hostWrite n v).params = s.params := by
  rw [hostWrite_frame]
@[simp] theorem hostWrite_lcfg (n : BitVec 8) (v : Int) : (s.hostWrite n v).lcfg = s.lcfg := by
  rw [hostWrite_frame]
@[simp] theorem hostWrite_cfglock (n : BitVec 8) (v : Int) : (s.hostWrite n v).cfglock = s.cfglock := by
  rw [hostWrite_frame]
@[simp] theorem hostWrite_trace (n : BitVec 8) (v : Int) : (s.hostWrite n v).trace = s.trace := by
  rw [hostWrite_frame]

@[simp] theorem loadRx_params (bs : List Byte) : (s.loadRx bs).params = s.params := rfl
@[simp] theorem loadRx_cfg (bs : List Byte) : (s.loadRx bs).cfg = s.cfg := rfl
@[simp] theorem loadRx_lcfg (bs : List Byte) : (s.loadRx bs).lcfg = s.lcfg := rfl
@[simp] theorem loadRx_cfglock (bs : List Byte) : (s.loadRx bs).cfglock = s.cfglock := rfl
@[simp] theorem loadRx_trace (bs : List Byte) : (s.loadRx bs).trace = s.trace := rfl

@[simp] theorem hardReset_params : s.hardReset.params = s.params := rfl

end Frames

/-- Past `Uninitialized` no command is an accepted `INIT`, so none writes the latched copy or the lock. -/
theorem commanded_keeps_configuration {b : Byte} {s t : State} (h : Commanded b s t)
    (hl : s.lstate ≠ .uninitialized) : t.cfg = s.cfg ∧ t.lcfg = s.lcfg ∧ t.cfglock = s.cfglock := by
  cases h with
  | accepted _ hu _ _ => exact absurd hu hl
  | raised _ _ ht | encoded _ _ ht | decoded _ _ _ ht | sent _ ht | received _ ht => subst ht; simp

/-- Settles O44: the lock shuts out the host's writes to `CFG_*`, and the link state past `Uninitialized` a second
`INIT`. -/
theorem lockedConfigurationStays : Obligations.LockedConfigurationStays := by
  intro s t hinv hlock hr h
  cases step_cases h with
  | reset hr' => rw [hr] at hr'; cases hr'
  | command v rest _ _ _ ht =>
    obtain ⟨hcfg, hlcfg, hlock'⟩ := commanded_keeps_configuration (exec_command ht) (hinv.lock.1 hlock)
    exact ⟨hcfg, hlcfg, hlock'.trans hlock⟩
  | written n v rest _ _ _ _ ht =>
    subst ht
    exact ⟨hostWrite_locked { s with host := rest } n v hlock, by simp, by simpa using hlock⟩
  | pulseLow _ _ _ ht | pulseHigh _ _ _ ht | broughtUp _ _ _ _ ht | bringupFailed _ _ _ _ ht
  | freqSet _ _ _ _ ht | setfreqFailed _ _ _ _ ht | addrSet _ _ _ ht | promiscOff _ _ _ ht
  | powerSet _ _ _ _ ht | noPower _ _ _ _ ht | blinked _ _ _ ht | waited _ _ _ ht | nothing _ _ _ ht
  | read _ _ _ _ _ ht | presented _ _ _ _ _ ht => subst ht; simpa using hlock

/-! ### The trace (10_state.md R58) -/

/-- A `RECVBYTES` exchange records one event, or none while it is unanswered. -/
theorem recvBytes_trace_grows (e : Bool) (m : Word) (s : State) : ∃ l, (s.recvBytes e m).trace = s.trace ++ l := by
  cases recvBytes_cases e m s with
  | withheld _ _ ht => exact ⟨[], by simp [ht]⟩
  | nothing _ ht | bytes _ _ ht => exact ⟨_, by rw [ht]⟩

/-- A command records the exchange it makes, if it makes one. -/
theorem commanded_trace_grows {b : Byte} {s t : State} (h : Commanded b s t) : ∃ l, t.trace = s.trace ++ l := by
  cases h with
  | received _ ht => rw [ht]; exact recvBytes_trace_grows ..
  | raised _ _ ht | encoded _ _ ht | decoded _ _ _ ht | accepted _ _ _ ht | sent _ ht => subst ht; simp

/-- No step writes the parameters (10_state.md R65). -/
theorem step_params {s t : State} (h : step s = .next t) : t.params = s.params := by
  cases step_cases h with
  | command _ _ _ _ _ ht => exact congrArg (·.1) (instructionsWriteOnlyTheirRegisters _ _ _ ht).1
  | reset _ ht | pulseLow _ _ _ ht | pulseHigh _ _ _ ht | broughtUp _ _ _ _ ht | bringupFailed _ _ _ _ ht
  | freqSet _ _ _ _ ht | setfreqFailed _ _ _ _ ht | addrSet _ _ _ ht | promiscOff _ _ _ ht
  | powerSet _ _ _ _ ht | noPower _ _ _ _ ht | blinked _ _ _ ht | waited _ _ _ ht | nothing _ _ _ ht
  | written _ _ _ _ _ _ _ ht | read _ _ _ _ _ ht | presented _ _ _ _ _ ht => subst ht; simp

/-- Without a reset a step adds events at the end of the trace or leaves it. -/
theorem step_trace_grows {s t : State} (hr : s.resetReq = false) (h : step s = .next t) :
    ∃ l, t.trace = s.trace ++ l := by
  cases step_cases h with
  | reset hr' => rw [hr] at hr'; cases hr'
  | command _ rest _ _ _ ht => exact commanded_trace_grows (s := { s with host := rest }) (exec_command ht)
  | waited _ _ _ ht => rw [ht]; exact recvBytes_trace_grows ..
  | pulseLow _ _ _ ht | pulseHigh _ _ _ ht | broughtUp _ _ _ _ ht | bringupFailed _ _ _ _ ht
  | freqSet _ _ _ _ ht | setfreqFailed _ _ _ _ ht | addrSet _ _ _ ht | promiscOff _ _ _ ht
  | powerSet _ _ _ _ ht | noPower _ _ _ _ ht | blinked _ _ _ ht | nothing _ _ _ ht
  | written _ _ _ _ _ _ _ ht | read _ _ _ _ _ ht | presented _ _ _ _ _ ht => subst ht; simp

/-- Settles O45. -/
theorem traceOnlyGrows : Obligations.TraceOnlyGrows := fun _ _ h =>
  ⟨step_params h, fun hr => step_trace_grows hr h⟩

/-! ### Host reads (20_memory.md R101) -/

theorem regOf_zero (cap : Nat) : regOf cap 0 = some .cmd := rfl

/-- A number that names a register reads as that register. -/
theorem hostRead_of_regOf {s : State} {n : BitVec 8} {r : Reg} (h : regOf s.params.rxCap n = some r) :
    s.hostRead n = s.getReg r := by
  simp only [State.hostRead, h]

/-- A reserved number reads 0. -/
theorem hostRead_of_reserved {s : State} {n : BitVec 8} (h : regOf s.params.rxCap n = none) : s.hostRead n = 0 := by
  simp only [State.hostRead, h]

/-- The host's own queue and list are no registers. -/
theorem hostRead_agents (s : State) (q : List HostOp) (l : List Nat) (n : BitVec 8) :
    ({ s with host := q, hostReads := l } : State).hostRead n = s.hostRead n := rfl

/-- Settles O40: the second read finds the registers as the first did. -/
theorem hostReadHasNoSideEffect : Obligations.HostReadHasNoSideEffect := by
  intro s n rest hr hi hh
  refine ⟨s.hostRead n, _, step_idle_read s n rest hr hi hh, rfl, fun r => hostRead_of_regOf, ?_, ?_⟩
  · rintro (rfl | hn)
    · exact hostRead_of_regOf (regOf_zero _)
    · exact hostRead_of_reserved hn
  · rintro rest' rfl
    rw [step_idle_read _ n rest', hostRead_agents, List.append_assoc]
    exacts [rfl, hr, hi, rfl]

/-! ### Host writes (20_memory.md R100) -/

/-- The number of a register in the map (10_state.md R62). -/
def regNumber : Reg → Nat
  | .cmd => 0x00
  | .status => 0x01
  | .lstate => 0x02
  | .fcause => 0x03
  | .ilat => 0x04
  | .ilon => 0x05
  | .iage => 0x06
  | .ihasfix => 0x07
  | .olat => 0x08
  | .olon => 0x09
  | .oage => 0x0A
  | .txlen => 0x0B
  | .rxlen => 0x0C
  | .cfgAddr => 0x0D
  | .cfgFreq => 0x0E
  | .cfgTxp => 0x0F
  | .cfgTxpEn => 0x10
  | .cfgResetPin => 0x11
  | .cfgCsPin => 0x12
  | .cfgIrqPin => 0x13
  | .rxTmoEn => 0x14
  | .rxTmo => 0x15
  | .cfglock => 0x16
  | .txb i => 0x20 + i
  | .rxb i => 0x40 + i

/-- The map gives a register its own number only. -/
theorem regNumber_of_regOf {cap : Nat} {n : BitVec 8} {r : Reg} (h : regOf cap n = some r) :
    regNumber r = n.toNat := by
  unfold regOf at h
  split at h
  case h_24 =>
    split_ifs at h with htx hrx <;> injection h with h <;> subst h
    · exact Nat.add_sub_of_le htx.1
    · exact Nat.add_sub_of_le hrx.1
  all_goals injection h with h; subst h; exact Eq.symm ‹_›

/-- No register has two numbers. -/
theorem regOf_injective {cap : Nat} {n m : BitVec 8} {r : Reg} (hn : regOf cap n = some r) (hm : regOf cap m = some r) :
    m = n :=
  BitVec.eq_of_toNat_eq ((regNumber_of_regOf hm).symm.trans (regNumber_of_regOf hn))

/-- A one-bit register holds the bit that is stored in it. -/
theorem toNat_decide_eq_one {p : Nat} (hp : p < 2) : (decide (p = 1)).toNat = p := by
  interval_cases p <;> rfl

/-- A host-writable register holds the pattern stored in it. -/
theorem getReg_putReg_same {s : State} {r : Reg} {p : Nat} (hw : regWritable r = true)
    (hp : p < 2 ^ regWidth s.params r) (hm : Memory.wf s.rxb = true) : (s.putReg r p).getReg r = p := by
  cases r with
  | ilat | ilon | iage => rfl
  | ihasfix | cfgTxpEn | rxTmoEn => exact toNat_decide_eq_one hp
  | rxlen | cfgAddr | cfgFreq | cfgTxp | cfgResetPin | cfgCsPin | cfgIrqPin | rxTmo => exact Nat.mod_eq_of_lt hp
  | rxb i =>
    show ((s.rxb.write i (BitVec.ofNat 8 p)).read i).toNat = p
    rw [read_write i i _ hm, if_pos rfl]
    exact Nat.mod_eq_of_lt hp
  | cmd | status | lstate | fcause | olat | olon | oage | txlen | cfglock | txb _ => cases hw

/-- A store changes no byte of `RXB` but the one it names. -/
theorem rxb_putReg_other {s : State} {r : Reg} {i : Nat} (p : Nat) (hr : r ≠ .rxb i) (hm : Memory.wf s.rxb = true) :
    (s.putReg r p).rxb.read i = s.rxb.read i := by
  cases r with
  | rxb j => exact (read_write j i _ hm).trans (if_neg fun (hij : i = j) => hr (by rw [hij]))
  | _ => rfl

/-- A store changes no register but the one it names: `hr` shuts out that one, and the others are computed. -/
theorem getReg_putReg_other {s : State} {r r' : Reg} (p : Nat) (hr : r ≠ r') (hm : Memory.wf s.rxb = true) :
    (s.putReg r p).getReg r' = s.getReg r' := by
  cases r' with
  | rxb i => exact congrArg BitVec.toNat (rxb_putReg_other p hr hm)
  | _ => cases r <;> first | rfl | exact absurd rfl hr

/-- What the host reads after a store in the register that number `n` names. -/
theorem hostRead_putReg {s : State} {n : BitVec 8} {r : Reg} {p : Nat} (hr : regOf s.params.rxCap n = some r)
    (hw : regWritable r = true) (hp : p < 2 ^ regWidth s.params r) (hm : Memory.wf s.rxb = true) (m : BitVec 8) :
    (s.putReg r p).hostRead m = if m = n then p else s.hostRead m := by
  have hparams : (s.putReg r p).params = s.params := by rw [putReg_frame]
  cases hr' : regOf s.params.rxCap m with
  | none =>
    have hmn : m ≠ n := by rintro rfl; rw [hr] at hr'; cases hr'
    rw [if_neg hmn, hostRead_of_reserved hr', hostRead_of_reserved (hparams ▸ hr')]
  | some r' =>
    rw [hostRead_of_regOf hr', hostRead_of_regOf (hparams ▸ hr')]
    by_cases hmn : m = n
    · subst hmn
      obtain rfl : r = r' := by rw [hr] at hr'; injection hr'
      rw [if_pos rfl, getReg_putReg_same hw hp hm]
    · rw [if_neg hmn, getReg_putReg_other p _ hm]
      rintro rfl
      exact hmn (regOf_injective hr hr')

/-- The bytes of `RXB` without a number are out of the host's reach (log 22). -/
theorem rxb_hostWrite_unnumbered {s : State} {i : Nat} (n : BitVec 8) (v : Int) (hi : 192 ≤ i)
    (hm : Memory.wf s.rxb = true) : (s.hostWrite n v).rxb.read i = s.rxb.read i := by
  rcases hostWrite_cases s n v with ⟨r, hr, -, -, hx⟩ | ⟨-, hx⟩ <;> rw [hx]
  refine rxb_putReg_other _ ?_ hm
  rintro rfl
  exact absurd (regOf_rxb_lt _ n i hr) (by omega)

/-- Settles O39: the write is a store in the register its number names, or nothing. -/
theorem hostWriteChangesOneRegister : Obligations.HostWriteChangesOneRegister := by
  intro s n v rest hr hi hm hn hh
  refine ⟨_, step_idle_write s n v rest hr hi hh hn, fun m => ?_, by rw [hostWrite_frame],
    fun i hi => rxb_hostWrite_unnumbered n v hi hm⟩
  rcases hostWrite_cases { s with host := rest } n v with ⟨r, hreg, hw, hc, hx⟩ | ⟨hno, hx⟩ <;> rw [hx]
  · rw [hostRead_putReg hreg hw (tc_lt ..) hm, hreg]
    exact if_congr (iff_self_and.2 fun _ => ⟨hw, hc⟩) rfl rfl
  · cases hreg : regOf s.params.rxCap n with
    | none => rfl
    | some r =>
      refine (if_neg ?_).symm
      rintro ⟨-, hw, hc⟩
      obtain ⟨hcfg, hlock⟩ := hno r hreg hw
      simp [hc hcfg] at hlock

end Sys2Proof.Machine
end

section
/-! PROOF. The host's accesses and the instructions they encode (20_memory.md R102, 30_encoding.md R110 to R113). -/

namespace Sys2Proof.Machine

/-- Every byte outside the table is reserved (30_encoding.md R113). -/
theorem decodeCmd_of_reserved {b : Byte} (hb : b ∉ commandBytes) : decodeCmd b = .illegal b := by
  simp only [commandBytes, List.mem_cons, List.not_mem_nil, or_false, not_or] at hb
  obtain ⟨h1, h2, h3, h4, h10, h11, h12⟩ := hb
  simp only [decodeCmd, h1, h2, h3, h4, h10, h11, h12, if_false]

/-- The round trip of the command format: the seven bytes of the table are compared, and `ILLEGAL` is encoded by
reserved bytes only. -/
theorem decodeCmd_of_encode {bo : ByteOrder} {i : Instr} {b : Byte} (hi : i.wf = true) (he : encode bo i = .cmd b) :
    decodeCmd b = i := by
  cases i <;> cases he
  case illegal => exact decodeCmd_of_reserved (by simpa [Instr.wf] using hi)
  all_goals rfl

/-- A value issues the command of its low eight bits. -/
theorem issued_of_tc {v : Int} {b : Byte} (hv : tc 8 v = b.toNat) : issued v = decodeCmd b := by
  rw [issued, hv, BitVec.ofNat_toNat, BitVec.setWidth_eq]

/-- Settles O36: the issued command is the decoded low byte, and decoding undoes the encoding. -/
theorem stepRunsTheIssuedCommand : Obligations.StepRunsTheIssuedCommand := by
  intro s i b v rest hr hidle hwf henc hv hh
  rw [step_idle_command s v rest hr hidle hh, issued_of_tc hv, decodeCmd_of_encode hwf henc]

end Sys2Proof.Machine
end

section
/-! PROOF. The encodings: decoding and encoding undo each other (30_encoding.md R110 to R125), what a frame row
presents, and `LOADRX` as its expansion (R131). -/

namespace Sys2Proof.Machine

/-! ### Decoding what was encoded -/

/-- Nine bytes, split into their fields, are the absolute frame of these fields (30_encoding.md R114). -/
theorem decodeFrame_nine (bo : ByteOrder) {lat lon : List Byte} (age : Byte) (hlat : lat.length = 4)
    (hlon : lon.length = 4) :
    decodeFrame bo (lat ++ lon ++ [age]) =
      .ok (.frameAbs (BitVec.ofNat 32 (wordN bo lat)) (BitVec.ofNat 32 (wordN bo lon)) age) := by
  match lat, lon, hlat, hlon with
  | [_, _, _, _], [_, _, _, _], _, _ => rfl

/-- Seven bytes with the magic, split into their fields, are the relative frame of these fields
(30_encoding.md R115). -/
theorem decodeFrame_seven (bo : ByteOrder) {dlat dlon : List Byte} (age : Byte) (hlat : dlat.length = 2)
    (hlon : dlon.length = 2) :
    decodeFrame bo ([Config.magic0, Config.magic1] ++ dlat ++ dlon ++ [age]) =
      .ok (.frameRel (BitVec.ofNat 16 (wordN bo dlat)) (BitVec.ofNat 16 (wordN bo dlon)) age) := by
  match dlat, dlon, hlat, hlon with
  | [_, _], [_, _], _, _ => rfl

/-- A pattern of `8n` bits stands in its `n` bytes, whichever comes first (00_scope.md R28). -/
theorem ofNat_wordN_bytesN (bo : ByteOrder) (n : Nat) (w : BitVec (8 * n)) :
    BitVec.ofNat (8 * n) (wordN bo (bytesN bo n w.toNat)) = w := by
  have hw : w.toNat < 256 ^ n := by
    rw [show 256 = 2 ^ 8 by rfl, ← pow_mul]
    exact w.isLt
  rw [wordN_bytesN bo n _ hw, BitVec.ofNat_toNat, BitVec.setWidth_eq]

theorem decodeFrame_absBytes (bo : ByteOrder) (lat lon : Word) (age : Byte) :
    decodeFrame bo (absBytes bo lat.toNat lon.toNat age) = .ok (.frameAbs lat lon age) := by
  rw [absBytes, decodeFrame_nine bo age (length_bytesN ..) (length_bytesN ..), ofNat_wordN_bytesN bo 4 lat,
    ofNat_wordN_bytesN bo 4 lon]

theorem decodeFrame_relBytes (bo : ByteOrder) (dlat dlon : Half) (age : Byte) :
    decodeFrame bo (relBytes bo dlat.toNat dlon.toNat age) = .ok (.frameRel dlat dlon age) := by
  rw [relBytes, decodeFrame_seven bo age (length_bytesN ..) (length_bytesN ..), ofNat_wordN_bytesN bo 2 dlat,
    ofNat_wordN_bytesN bo 2 dlon]

/-- Settles O5, format by format: the operation number selects a port operation's row, and the arguments carry over. -/
theorem decodeOfEncodeIsTheInstruction : Obligations.DecodeOfEncodeIsTheInstruction := by
  intro bo i hwf
  cases i with
  | encAbs | decAbs | encRel | decRel | init | send | recv | illegal _ =>
    exact congrArg Except.ok (decodeCmd_of_encode (bo := bo) hwf rfl)
  | reset _ | bringup _ _ | setfreq _ | setaddr _ | setpromisc _ | settxpower _ _ | recvbytes _ _ => rfl
  | sendbytes buf => exact if_pos (of_decide_eq_true hwf)
  | frameAbs lat lon age => exact decodeFrame_absBytes bo lat lon age
  | frameRel dlat dlon age => exact decodeFrame_relBytes bo dlat dlon age

/-! ### Encoding what was decoded -/

theorem encode_decodeCmd (bo : ByteOrder) (b : Byte) : encode bo (decodeCmd b) = .cmd b := by
  unfold decodeCmd
  split_ifs <;> subst_vars <;> rfl

/-- Only the arguments of the operation's own row are accepted, and they are all kept (30_encoding.md R125). -/
theorem encode_of_decodePort (bo : ByteOrder) {op : BitVec 4} {args : List PortArg} {i : Instr}
    (h : decodePort op args = .ok i) : i.wf = true ∧ encode bo i = .port op args := by
  unfold decodePort at h
  split_ifs at h <;> subst_vars
  -- `SENDBYTES`, whose row also bounds the length of the buffer.
  on_goal 7 =>
    split at h
    · split_ifs at h with hl
      cases h
      exact ⟨decide_eq_true hl, rfl⟩
    · cases h
  all_goals
    split at h <;> cases h
    exact ⟨rfl, rfl⟩

/-- A frame row's fields use their whole width, so every one is well-formed (30_encoding.md R114, R115). -/
theorem wf_of_decodeFrame {bo : ByteOrder} {bytes : List Byte} {i : Instr} (h : decodeFrame bo bytes = .ok i) :
    i.wf = true := by
  rcases decodeFrame_format bo bytes i h with ⟨_, _, _, rfl⟩ | ⟨_, _, _, rfl⟩ <;> rfl

/-- Settles O6, format by format. -/
theorem encodeOfDecodeIsTheCode : Obligations.EncodeOfDecodeIsTheCode := by
  intro bo c i h
  cases c with
  | cmd b => cases h; exact ⟨decodeCmd_wf b, encode_decodeCmd bo b⟩
  | port op args => exact encode_of_decodePort bo h
  | frame bytes => exact ⟨wf_of_decodeFrame h, encode_of_decodeFrame bo bytes i h⟩

/-- Settles O7: the decoder computes each. -/
theorem sampleWordsDecode : Obligations.SampleWordsDecode := ⟨rfl, rfl, rfl, rfl, rfl, rfl⟩

/-! ### Presenting bytes (30_encoding.md R131) -/

/-- Settles O37: a step presents the bytes, and so does running the row they decode to. -/
theorem stepPresentsFrames : Obligations.StepPresentsFrames := by
  intro s bytes rest hr hi hh
  have hstep := step_idle_loadRx s bytes rest hr hi hh
  refine ⟨fun i hwf henc => ?_, fun _ => hstep⟩
  have hdec : decode s.params.byteOrder (.frame bytes) = .ok i :=
    henc ▸ decodeOfEncodeIsTheInstruction s.params.byteOrder i hwf
  exact hstep.trans (exec_decodeFrame { s with host := rest } bytes i hdec).symm

/-- Settles O38: a reserved byte selects `ILLEGAL`, whose meaning is the exception. -/
theorem reservedCommandBytesAreIllegal : Obligations.ReservedCommandBytesAreIllegal := by
  intro s b rest hr hi hb hh
  refine ⟨?_, rfl⟩
  rw [step_idle_command s _ rest hr hi hh, issued_of_tc (tc_of_lt 8 _ b.isLt), decodeCmd_of_reserved hb]

/-- The register map gives the numbers from 0x40 on to `RXB` (10_state.md R62). -/
theorem regOf_rxb_number {cap i : Nat} (hi : i < 192) (hc : i < cap) :
    regOf cap (BitVec.ofNat 8 (0x40 + i)) = some (.rxb i) := by
  have hn : (BitVec.ofNat 8 (0x40 + i)).toNat = 0x40 + i := by
    rw [BitVec.toNat_ofNat, Nat.mod_eq_of_lt (by omega)]
  unfold regOf
  rw [hn]
  split
  case h_24 => rw [if_neg (by omega), if_pos (by omega), Nat.add_sub_cancel_left]
  all_goals omega

/-- A byte written to a numbered byte of `RXB` stands there. -/
theorem hostWrite_rxb (s : State) {i : Nat} (b : Byte) (hi : i < 192) (hc : i < s.params.rxCap) :
    s.hostWrite (BitVec.ofNat 8 (0x40 + i)) b.toNat = { s with rxb := s.rxb.write i b } := by
  have htc : BitVec.ofNat 8 (tc 8 b.toNat) = b := by
    rw [tc_of_lt 8 _ b.isLt, BitVec.ofNat_toNat, BitVec.setWidth_eq]
  simp [State.hostWrite, regOf_rxb_number hi hc, regWritable, regIsCfg, regWidth, State.putReg, htc]

/-- A number of bytes written to `RXLEN` stands there. -/
theorem hostWrite_rxlen (s : State) {n : Nat} (hn : n < 256) :
    s.hostWrite 0x0C n = { s with rxlen := BitVec.ofNat 8 n } := by
  have htc : tc 8 n = n := tc_of_lt 8 n hn
  show { s with rxlen := BitVec.ofNat 8 (tc 8 n) } = _
  rw [htc]

/-- The byte writes of the expansion, run one a step, write their bytes from index `i` on; then come the next `k`
steps. -/
theorem steps_writeScript {bytes : List Byte} {ops : List HostOp} (k : Nat) {s : State} {i : Nat}
    (hr : s.resetReq = false) (hidle : s.idle = true) (hc : i + bytes.length ≤ s.params.rxCap)
    (hn : i + bytes.length ≤ 192) (hh : s.host = writeScript (0x40 + i) bytes ++ ops) :
    steps (bytes.length + k) s = steps k { s with host := ops, rxb := s.rxb.writeBytes i bytes } := by
  induction bytes generalizing s i with
  | nil =>
    cases hh
    rw [List.length_nil, Nat.zero_add]
    rfl
  | cons b bs ih =>
    rw [List.length_cons] at hc hn
    rw [writeScript_cons (by omega)] at hh
    have hnum : BitVec.ofNat 8 (0x40 + i) ≠ 0 := by bv_omega
    have hstep := step_idle_write s _ b.toNat _ hr hidle hh hnum
    rw [hostWrite_rxb _ b (by omega) (by simp only; omega)] at hstep
    rw [List.length_cons, Nat.succ_add, steps_succ _ hstep]
    exact ih (s := { s with host := _, rxb := _ }) hr hidle (by simp only; omega) (by omega) rfl

/-- Presented bytes that fit stand in `RXB`, and their number in `RXLEN`. -/
theorem loadRx_of_fits {s : State} {bytes : List Byte} (hc : bytes.length ≤ s.params.rxCap) :
    s.loadRx bytes =
      { s with rxb := s.rxb.writeBytes 0 bytes, rxlen := BitVec.ofNat 8 bytes.length } := by
  rw [State.loadRx, State.putRx, List.take_of_length_le hc]

/-- Settles O42: after the byte writes the write of `RXLEN` ends the expansion. -/
theorem loadRxIsItsExpansion : Obligations.LoadRxIsItsExpansion := by
  intro s bytes rest hr hidle hc hn
  have hbytes := steps_writeScript (s := { s with host := loadRxScript bytes ++ rest }) (i := 0) 1 hr hidle
    (by simp only; omega) (by omega) (List.append_assoc ..)
  have hlen := step_idle_write { s with host := .write 0x0C bytes.length :: rest, rxb := s.rxb.writeBytes 0 bytes }
    0x0C bytes.length rest hr hidle rfl (by decide)
  have hload := step_idle_loadRx { s with host := .loadRx bytes :: rest } bytes rest hr hidle rfl
  rw [hostWrite_rxlen _ (by omega)] at hlen
  rw [loadRx_of_fits (by exact hc)] at hload
  exact hbytes.trans ((steps_succ 0 hlen).trans hload.symm)

/-! ### The fields of a presented frame (30_encoding.md R114, R115, R120, R122) -/

/-- Presenting `n` bytes that fit: they read back from `RXB`, `RXLEN` counts them, and nothing else changes. -/
theorem loadRx_presents {s : State} {bytes : List Byte} {n : Nat} (hm : Memory.wf s.rxb = true)
    (hn : bytes.length = n) (hc : n ≤ s.params.rxCap) :
    s.loadRx bytes = { s with rxb := (s.loadRx bytes).rxb, rxlen := BitVec.ofNat 8 n } ∧
      (s.loadRx bytes).rxb.readBytes 0 n = bytes ∧
      ∀ j, n ≤ j → (s.loadRx bytes).rxb.read j = s.rxb.read j := by
  subst hn
  rw [loadRx_of_fits hc]
  exact ⟨rfl, readBytes_writeBytes 0 bytes hm, fun j hj => read_writeBytes_past 0 j bytes hm (by omega)⟩

/-- A four-byte field is its pattern as a signed integer. -/
theorem field_bytesN_word (p : Params) (w : Word) : field p (bytesN p.byteOrder 4 w.toNat) = w.toInt := by
  rw [field, length_bytesN, wordN_bytesN _ _ _ w.isLt, sext_word]

/-- A two-byte field is its pattern as a signed integer. -/
theorem field_bytesN_half (p : Params) (w : Half) : field p (bytesN p.byteOrder 2 w.toNat) = w.toInt := by
  rw [field, length_bytesN, wordN_bytesN _ _ _ w.isLt, sext_half]

/-- What `DEC_ABS` makes of an absolute frame that stands in `RXB` (40_payload_codec.md R157). -/
theorem exec_decAbs_of_frame {s : State} {lat lon : Word} {age : Byte} (hlen : s.rxlen = 9)
    (hb : s.rxb.readBytes 0 9 = absBytes s.params.byteOrder lat.toNat lon.toNat age) :
    exec .decAbs s = .next (s.putFix (lat.toInt * qAbs s.params) (lon.toInt * qAbs s.params) age) := by
  obtain ⟨hlat, hlon, hage⟩ := absFields _ _ _ _ _ hb
  rw [exec, execDecAbs, if_neg (by rw [hlen]; decide), hlat, hlon, hage, field_bytesN_word, field_bytesN_word]

/-- What `DEC_REL` makes of a relative frame that stands in `RXB` (40_payload_codec.md R163). -/
theorem exec_decRel_of_frame {s : State} {dlat dlon : Half} {age : Byte} (hlen : s.rxlen = 7)
    (hb : s.rxb.readBytes 0 7 = relBytes s.params.byteOrder dlat.toNat dlon.toNat age) :
    exec .decRel s = .next (s.putFix (s.params.refLatQ + dlat.toInt * qRel s.params)
      (s.params.refLonQ + dlon.toInt * qRel s.params) age) := by
  obtain ⟨hm0, hm1, hlat, hlon, hage⟩ := relFields _ _ _ _ _ hb
  rw [exec, execDecRel, if_neg (by rw [hlen]; decide), if_neg (by simp [hm0, hm1]), hlat, hlon, hage,
    field_bytesN_half, field_bytesN_half]

theorem sext_tc_word (p : Params) (hv : p.Valid) (w : Word) :
    sext p.coordW (tc p.coordW (w.toInt * qAbs p)) = w.toInt * qAbs p :=
  sext_tc_abs p hv _ w.le_toInt (Int.le_of_lt_add_one w.toInt_lt)

theorem sext_tc_half (p : Params) (hv : p.Valid) (w : Half) {r : Int} (hr : r = p.refLatQ ∨ r = p.refLonQ) :
    sext p.coordW (tc p.coordW (r + w.toInt * qRel p)) = r + w.toInt * qRel p :=
  sext_tc_rel p hv _ r w.le_toInt (Int.le_of_lt_add_one w.toInt_lt) hr

/-- Settles O19: the row presents its bytes, the decoder reads their fields, and no result overflows. -/
theorem frameRowsCarryTheirFields : Obligations.FrameRowsCarryTheirFields := by
  intro s hv hm
  obtain ⟨-, -, -, -, -, hcap⟩ := id hv
  constructor
  · intro lat lon age
    obtain ⟨ht, hb, hpast⟩ := loadRx_presents hm (length_absBytes s.params.byteOrder lat.toNat lon.toNat age) hcap
    exact ⟨_, _, rfl, ht, hb, hpast, exec_decAbs_of_frame (congrArg State.rxlen ht) hb, rfl, rfl,
      sext_tc_word _ hv lat, sext_tc_word _ hv lon⟩
  · intro dlat dlon age
    obtain ⟨ht, hb, hpast⟩ :=
      loadRx_presents hm (length_relBytes s.params.byteOrder dlat.toNat dlon.toNat age) (by omega)
    exact ⟨_, _, rfl, ht, hb, hpast, exec_decRel_of_frame (congrArg State.rxlen ht) hb, rfl, rfl,
      sext_tc_half _ hv dlat (.inl rfl), sext_tc_half _ hv dlon (.inr rfl)⟩

end Sys2Proof.Machine
end

section
/-! PROOF. The statements of 40_payload_codec.md: the age byte (R152), the four codec commands (R155, R157, R160, R163),
what they depend on (R150), and the round trips (R166 to R170). Their lemmas stand before them. -/

namespace Sys2Proof.Machine

/-! ### The age byte (R152) -/

/-- Settles O4, from the number that the age byte is. -/
theorem ageByteIsClamped : Obligations.AgeByteIsClamped := by
  refine fun a => ⟨rfl, fun h => ?_, fun h => ?_, fun h0 h254 => ?_⟩ <;> rw [age8_toNat, if_neg (by decide)]
  · rw [if_pos h]
  · rw [if_neg (by omega), if_pos h]
  · rw [if_neg (by omega), if_neg (by omega), Int.toNat_of_nonneg h0]

/-! ### Encoding (R153, R155, R160) -/

/-- The range test of `ENC_ABS`, whether or not the policy asks for it (R153). -/
def State.absFits (s : State) : Bool :=
  fitsAbs (toAbs s.params s.inLat) && fitsAbs (toAbs s.params s.inLon)

/-- The range test of `ENC_REL`, whether or not the policy asks for it (R153). -/
def State.relFits (s : State) : Bool :=
  fitsRel (toRel s.params s.inLat s.params.refLatQ) && fitsRel (toRel s.params s.inLon s.params.refLonQ)

/-- The absolute frame of the fix registers (R155). -/
def State.absFrame (s : State) : List Byte :=
  absBytes s.params.byteOrder (tc 32 (toAbs s.params s.inLat)) (tc 32 (toAbs s.params s.inLon)) s.inAge

/-- The relative frame of the fix registers (R160). -/
def State.relFrame (s : State) : List Byte :=
  relBytes s.params.byteOrder (tc 16 (toRel s.params s.inLat s.params.refLatQ))
    (tc 16 (toRel s.params s.inLon s.params.refLonQ)) s.inAge

/-- What the two encoders share: the frame is stored unless the range test counts and fails. -/
def State.encodeFrame (fits : Bool) (bytes : List Byte) (s : State) : State :=
  if outOfRange s.params fits then s.raise .encRange else s.putTx bytes

theorem exec_encAbs (s : State) : exec .encAbs s = .next (s.encodeFrame s.absFits s.absFrame) :=
  (apply_ite Host.Outcome.next ..).symm

theorem exec_encRel (s : State) : exec .encRel s = .next (s.encodeFrame s.relFits s.relFrame) :=
  (apply_ite Host.Outcome.next ..).symm

@[simp] theorem length_absFrame (s : State) : s.absFrame.length = 9 := length_absBytes ..

@[simp] theorem length_relFrame (s : State) : s.relFrame.length = 7 := length_relBytes ..

theorem absFits_iff (s : State) : s.absFits = true ↔
    fitsAbs (toAbs s.params s.inLat) = true ∧ fitsAbs (toAbs s.params s.inLon) = true := Bool.and_eq_true_iff

theorem relFits_iff (s : State) : s.relFits = true ↔
    fitsRel (toRel s.params s.inLat s.params.refLatQ) = true ∧
      fitsRel (toRel s.params s.inLon s.params.refLonQ) = true := Bool.and_eq_true_iff

theorem absFits_iff_bounds (s : State) : s.absFits = true ↔
    -2147483648 ≤ toAbs s.params s.inLat ∧ toAbs s.params s.inLat ≤ 2147483647 ∧
      -2147483648 ≤ toAbs s.params s.inLon ∧ toAbs s.params s.inLon ≤ 2147483647 := by
  rw [absFits_iff, fitsAbs_iff, fitsAbs_iff, and_assoc]

theorem relFits_iff_bounds (s : State) : s.relFits = true ↔
    -32767 ≤ toRel s.params s.inLat s.params.refLatQ ∧ toRel s.params s.inLat s.params.refLatQ ≤ 32767 ∧
      -32767 ≤ toRel s.params s.inLon s.params.refLonQ ∧ toRel s.params s.inLon s.params.refLonQ ≤ 32767 := by
  rw [relFits_iff, fitsRel_iff, fitsRel_iff, and_assoc]

section EncodeFrame

variable {s : State} {fits : Bool} {bytes : List Byte}

/-- The frame is stored under `Wrap`, and under `Fault` when the values fit. -/
theorem encodeFrame_of_inRange (h : s.params.rangePolicy = .wrap ∨ fits = true) :
    s.encodeFrame fits bytes = s.putTx bytes :=
  if_neg fun hout => by
    obtain ⟨hfault, hfits⟩ := (outOfRange_iff ..).1 hout
    rcases h with h | h
    · rw [h] at hfault; cases hfault
    · rw [h] at hfits; cases hfits

/-- Under `Fault` a value that does not fit raises `EncRange` (60_exceptions.md R246). -/
theorem encodeFrame_of_outOfRange (hp : s.params.rangePolicy = .fault) (hf : ¬ fits = true) :
    s.encodeFrame fits bytes = { s with txlen := 0, status := .encRange } :=
  if_pos ((outOfRange_iff ..).2 ⟨hp, Bool.eq_false_iff.2 hf⟩)

/-- An encode that ends with `OK` has stored its frame, and under `Fault` the values fit. -/
theorem encodeFrame_of_ok (hok : (s.encodeFrame fits bytes).status = .ok) :
    s.encodeFrame fits bytes = s.putTx bytes ∧ (s.params.rangePolicy = .fault → fits = true) := by
  by_cases h : s.params.rangePolicy = .fault ∧ ¬ fits = true
  · rw [encodeFrame_of_outOfRange h.1 h.2] at hok
    cases hok
  · have hfits : s.params.rangePolicy = .fault → fits = true := fun hp => not_not.1 fun hf => h ⟨hp, hf⟩
    refine ⟨encodeFrame_of_inRange ?_, hfits⟩
    cases hp : s.params.rangePolicy with
    | fault => exact .inr (hfits hp)
    | wrap => exact .inl rfl

/-- Storing a frame of `n` bytes: they read back from `TXB`, `TXLEN` counts them, and nothing else changes but
`STATUS`. -/
theorem putTx_stores {n : Nat} (hm : Memory.wf s.txb = true) (hn : bytes.length = n) :
    s.putTx bytes = { s with txb := (s.putTx bytes).txb, txlen := BitVec.ofNat 4 n, status := .ok } ∧
      (s.putTx bytes).txb.readBytes 0 n = bytes ∧
      ∀ i, n ≤ i → (s.putTx bytes).txb.read i = s.txb.read i := by
  subst hn
  exact ⟨rfl, readBytes_writeBytes 0 bytes hm, fun i hi => read_writeBytes_past 0 i bytes hm (by omega)⟩

end EncodeFrame

/-- Settles O8: the frame is stored and read field by field, the bytes past its nine stay, or `EncRange` is raised. -/
theorem encAbsWritesTheAbsoluteFrame : Obligations.EncAbsWritesTheAbsoluteFrame := by
  refine ⟨rfl, ?_⟩
  rintro s _ _ hm rfl rfl
  refine ⟨fun h => ?_, fun hp hf => ?_⟩
  · obtain ⟨ht, hb, hpast⟩ := putTx_stores hm (length_absFrame s)
    obtain ⟨hlat, hlon, hage⟩ := absFields _ _ _ _ _ hb
    refine ⟨s.putTx s.absFrame, ?_, ht, hlat, hlon, hage, hpast⟩
    rw [exec_encAbs, encodeFrame_of_inRange (h.imp_right (absFits_iff_bounds s).2)]
  · rw [exec_encAbs, encodeFrame_of_outOfRange hp (mt (absFits_iff_bounds s).1 hf)]

/-- Settles O9: the frame is stored and read field by field, the bytes past its seven stay, or `EncRange` is raised. -/
theorem encRelWritesTheRelativeFrame : Obligations.EncRelWritesTheRelativeFrame := by
  refine ⟨rfl, ?_⟩
  rintro s _ _ hm rfl rfl
  refine ⟨fun h => ?_, fun hp hf => ?_⟩
  · obtain ⟨ht, hb, hpast⟩ := putTx_stores hm (length_relFrame s)
    obtain ⟨hm0, hm1, hlat, hlon, hage⟩ := relFields _ _ _ _ _ hb
    refine ⟨s.putTx s.relFrame, ?_, ht, hm0, hm1, hlat, hlon, hage, hpast⟩
    rw [exec_encRel, encodeFrame_of_inRange (h.imp_right (relFits_iff_bounds s).2)]
  · rw [exec_encRel, encodeFrame_of_outOfRange hp (mt (relFits_iff_bounds s).1 hf)]

/-! ### Decoding (R157, R163) -/

section Decode

variable {s : State}

/-- Nine bytes are an absolute frame whatever they hold. -/
theorem exec_decAbs_of_nine (hlen : s.rxlen = 9) :
    exec .decAbs s = .next (s.putFix (field s.params (s.rxb.readBytes 0 4) * qAbs s.params)
      (field s.params (s.rxb.readBytes 4 4) * qAbs s.params) (s.rxb.read 8)) :=
  if_neg fun h => h (by rw [hlen]; rfl)

theorem exec_decAbs_of_badLength (hlen : s.rxlen ≠ 9) :
    exec .decAbs s = .next { s with status := .badLength } :=
  if_pos (mt BitVec.eq_of_toNat_eq hlen)

/-- Seven bytes that begin with the magic are a relative frame. -/
theorem exec_decRel_of_magic (hlen : s.rxlen = 7) (h0 : s.rxb.read 0 = Config.magic0)
    (h1 : s.rxb.read 1 = Config.magic1) :
    exec .decRel s = .next (s.putFix
      (s.params.refLatQ + field s.params (s.rxb.readBytes 2 2) * qRel s.params)
      (s.params.refLonQ + field s.params (s.rxb.readBytes 4 2) * qRel s.params) (s.rxb.read 6)) := by
  rw [exec, execDecRel, if_neg (by rw [hlen]; decide), if_neg (by simp [h0, h1])]

/-- The length is tested before the magic (60_exceptions.md R255). -/
theorem exec_decRel_of_badLength (hlen : s.rxlen ≠ 7) :
    exec .decRel s = .next { s with status := .badLength } :=
  if_pos (mt BitVec.eq_of_toNat_eq hlen)

theorem exec_decRel_of_badMagic (hlen : s.rxlen = 7)
    (hm : ¬ (s.rxb.read 0 = Config.magic0 ∧ s.rxb.read 1 = Config.magic1)) :
    exec .decRel s = .next { s with status := .badMagic } := by
  rw [exec, execDecRel, if_neg (by rw [hlen]; decide), if_pos (not_and_or.1 hm)]
  rfl

end Decode

theorem outLat_putFix (s : State) (lat lon : Int) (age : Byte) :
    (s.putFix lat lon age).outLat = sext s.params.coordW (tc s.params.coordW lat) := rfl

theorem outLon_putFix (s : State) (lat lon : Int) (age : Byte) :
    (s.putFix lat lon age).outLon = sext s.params.coordW (tc s.params.coordW lon) := rfl

/-- A four-byte field scaled to register units fits a coordinate register (00_scope.md R16). -/
theorem sext_tc_field_abs (p : Params) (hv : p.Valid) (m : Memory) (i : Nat) :
    sext p.coordW (tc p.coordW (field p (m.readBytes i 4) * qAbs p)) = field p (m.readBytes i 4) * qAbs p := by
  have h := field_range p (m.readBytes i 4) (by simp)
  rw [length_readBytes] at h
  exact sext_tc_abs p hv _ h.1 (Int.le_of_lt_add_one h.2)

/-- A two-byte field scaled and added to its reference fits a coordinate register (00_scope.md R16). -/
theorem sext_tc_field_rel (p : Params) (hv : p.Valid) (m : Memory) (i : Nat) {r : Int}
    (hr : r = p.refLatQ ∨ r = p.refLonQ) :
    sext p.coordW (tc p.coordW (r + field p (m.readBytes i 2) * qRel p)) =
      r + field p (m.readBytes i 2) * qRel p := by
  have h := field_range p (m.readBytes i 2) (by simp)
  rw [length_readBytes] at h
  exact sext_tc_rel p hv _ r h.1 (Int.le_of_lt_add_one h.2) hr

/-- Settles O10: the length decides, and a field cannot overflow. -/
theorem decAbsReadsTheAbsoluteFrame : Obligations.DecAbsReadsTheAbsoluteFrame := by
  refine ⟨rfl, ?_⟩
  rintro s _ _ rfl rfl
  rw [← field_four, ← field_four]
  exact ⟨fun hlen => ⟨_, exec_decAbs_of_nine hlen, rfl, fun hv =>
    ⟨(outLat_putFix ..).trans (sext_tc_field_abs _ hv _ 0),
      (outLon_putFix ..).trans (sext_tc_field_abs _ hv _ 4)⟩⟩, exec_decAbs_of_badLength⟩

/-- Settles O11: the length decides first, then the magic, and an offset cannot overflow. -/
theorem decRelReadsTheRelativeFrame : Obligations.DecRelReadsTheRelativeFrame := by
  refine ⟨rfl, ?_⟩
  rintro s _ _ rfl rfl
  rw [← field_two, ← field_two]
  exact ⟨exec_decRel_of_badLength, exec_decRel_of_badMagic, fun hlen h0 h1 =>
    ⟨_, exec_decRel_of_magic hlen h0 h1, rfl, fun hv =>
      ⟨(outLat_putFix ..).trans (sext_tc_field_rel _ hv _ 2 (.inl rfl)),
        (outLon_putFix ..).trans (sext_tc_field_rel _ hv _ 4 (.inr rfl))⟩⟩⟩

/-- Settles O15: `BadMagic` writes `STATUS` alone. -/
theorem alteredMagicIsRejected : Obligations.AlteredMagicIsRejected := fun _ hlen hm =>
  ⟨_, exec_decRel_of_badMagic hlen fun h => hm (Prod.ext h.1 h.2), rfl, rfl, rfl, rfl⟩

/-! ### What a codec command depends on (R150) -/

/-- What a codec command can do to the state that issues it. -/
inductive CodecEffect : (State → State) → Prop
  | raised (e : Exc) (he : ∀ c, e ≠ .fatalInit c) (hr : e ≠ .receiveError) : CodecEffect (State.raise e)
  | encoded (bytes : List Byte) : CodecEffect (State.putTx bytes)
  | decoded (lat lon : Int) (age : Byte) : CodecEffect (State.putFix lat lon age)

/-- States that agree on the operands and the parameters meet the same effect. -/
theorem codec_effect_of_operands {i : Instr} {s r : State} (hi : i ∈ [Instr.encAbs, .decAbs, .encRel, .decRel])
    (hops : (r.params, r.ilat, r.ilon, r.iage, r.ihasfix, r.rxlen, r.rxb) =
      (s.params, s.ilat, s.ilon, s.iage, s.ihasfix, s.rxlen, s.rxb)) :
    ∃ f, CodecEffect f ∧ exec i s = .next (f s) ∧ exec i r = .next (f r) := by
  simp only [Prod.mk.injEq] at hops
  obtain ⟨hp, hilat, hilon, hiage, hfix, hlen, hrxb⟩ := hops
  have hlat : r.inLat = s.inLat := by rw [State.inLat, hp, hilat, State.inLat]
  have hlon : r.inLon = s.inLon := by rw [State.inLon, hp, hilon, State.inLon]
  have hage : r.inAge = s.inAge := by rw [State.inAge, hp, hiage, hfix, State.inAge]
  simp only [List.mem_cons, List.not_mem_nil, or_false] at hi
  rcases hi with rfl | rfl | rfl | rfl
  · simp only [exec, execEncAbs, hp, hlat, hlon, hage]
    split_ifs
    · exact ⟨_, .raised .encRange nofun nofun, rfl, rfl⟩
    · exact ⟨_, .encoded _, rfl, rfl⟩
  · simp only [exec, execDecAbs, hp, hlen, hrxb]
    split_ifs
    · exact ⟨_, .raised .badLength nofun nofun, rfl, rfl⟩
    · exact ⟨_, .decoded .., rfl, rfl⟩
  · simp only [exec, execEncRel, hp, hlat, hlon, hage]
    split_ifs
    · exact ⟨_, .raised .encRange nofun nofun, rfl, rfl⟩
    · exact ⟨_, .encoded _, rfl, rfl⟩
  · simp only [exec, execDecRel, hp, hlen, hrxb]
    split_ifs
    · exact ⟨_, .raised .badLength nofun nofun, rfl, rfl⟩
    · exact ⟨_, .raised .badMagic nofun nofun, rfl, rfl⟩
    · exact ⟨_, .decoded .., rfl, rfl⟩

/-- Of two states that agree on the outputs and the parameters, an effect makes two that agree on the outputs, and it
writes nothing else. -/
theorem CodecEffect.sameOutputs {f : State → State} (hf : CodecEffect f) {s r : State} (hp : r.params = s.params)
    (hout : (r.txb, r.txlen, r.olat, r.olon, r.oage) = (s.txb, s.txlen, s.olat, s.olon, s.oage)) :
    f s = { s with txb := (f s).txb, txlen := (f s).txlen, olat := (f s).olat, olon := (f s).olon,
                   oage := (f s).oage, status := (f s).status } ∧
    f r = { r with txb := (f s).txb, txlen := (f s).txlen, olat := (f s).olat, olon := (f s).olon,
                   oage := (f s).oage, status := (f s).status } := by
  simp only [Prod.mk.injEq] at hout
  obtain ⟨htxb, htxlen, holat, holon, hoage⟩ := hout
  cases hf with
  | raised e he hr =>
    simp [raise_returned _ e he, hr, ← htxb, ← htxlen, ← holat, ← holon, ← hoage]
  | encoded bytes => exact ⟨rfl, by simp [State.putTx, ← htxb, ← holat, ← holon, ← hoage]⟩
  | decoded lat lon age => exact ⟨rfl, by simp [State.putFix, hp, ← htxb, ← htxlen]⟩

/-- Settles O18: the operands fix the effect, and the effect is the same on both states. -/
theorem codecDependsOnItsOperandsAlone : Obligations.CodecDependsOnItsOperandsAlone := by
  intro i s r hi hops hout
  obtain ⟨f, hf, hs, hr⟩ := codec_effect_of_operands hi hops
  obtain ⟨hfs, hfr⟩ := hf.sameOutputs (congrArg (·.1) hops) hout
  exact ⟨f s, f r, hs, hr, hfs, hfr⟩

/-! ### A frame that was copied to a receiver (R166 to R169) -/

/-- The absolute frame that a receiver holds after an encode that ended with `OK`: its fields, and under `Fault`
values that fit. -/
theorem received_absFrame {s t r : State} (hm : Memory.wf s.txb = true) (henc : exec .encAbs s = .next t)
    (hok : t.status = .ok) (hb : r.rxb.readBytes 0 9 = t.txb.readBytes 0 9) :
    (r.rxb.readBytes 0 4 = bytesN s.params.byteOrder 4 (tc 32 (toAbs s.params s.inLat)) ∧
      r.rxb.readBytes 4 4 = bytesN s.params.byteOrder 4 (tc 32 (toAbs s.params s.inLon)) ∧
      r.rxb.read 8 = s.inAge) ∧
    (s.params.rangePolicy = .fault → s.absFits = true) := by
  rw [exec_encAbs] at henc
  cases henc
  obtain ⟨ht, hfits⟩ := encodeFrame_of_ok hok
  obtain ⟨-, hstored, -⟩ := putTx_stores hm (length_absFrame s)
  rw [ht, hstored] at hb
  exact ⟨absFields _ _ _ _ _ hb, hfits⟩

/-- The relative frame that a receiver holds after an encode that ended with `OK`: the magic, its fields, and under
`Fault` offsets that fit. -/
theorem received_relFrame {s t r : State} (hm : Memory.wf s.txb = true) (henc : exec .encRel s = .next t)
    (hok : t.status = .ok) (hb : r.rxb.readBytes 0 7 = t.txb.readBytes 0 7) :
    (r.rxb.read 0 = Config.magic0 ∧ r.rxb.read 1 = Config.magic1 ∧
      r.rxb.readBytes 2 2 = bytesN s.params.byteOrder 2 (tc 16 (toRel s.params s.inLat s.params.refLatQ)) ∧
      r.rxb.readBytes 4 2 = bytesN s.params.byteOrder 2 (tc 16 (toRel s.params s.inLon s.params.refLonQ)) ∧
      r.rxb.read 6 = s.inAge) ∧
    (s.params.rangePolicy = .fault → s.relFits = true) := by
  rw [exec_encRel] at henc
  cases henc
  obtain ⟨ht, hfits⟩ := encodeFrame_of_ok hok
  obtain ⟨-, hstored, -⟩ := putTx_stores hm (length_relFrame s)
  rw [ht, hstored] at hb
  exact ⟨relFields _ _ _ _ _ hb, hfits⟩

/-- Settles O16: the decoders copy the age byte, whatever the coordinates and the byte order of the receiver. -/
theorem sentinelSurvivesTheRoundTrip : Obligations.SentinelSurvivesTheRoundTrip := by
  intro s t r hm hage hok
  refine ⟨fun henc hlen hb => ?_, fun henc hlen hb => ?_⟩
  · obtain ⟨⟨-, -, hr⟩, -⟩ := received_absFrame hm henc hok hb
    exact ⟨_, exec_decAbs_of_nine hlen, hr.trans hage⟩
  · obtain ⟨⟨h0, h1, -, -, hr⟩, -⟩ := received_relFrame hm henc hok hb
    exact ⟨_, exec_decRel_of_magic hlen h0 h1, hr.trans hage⟩

/-- A value that fits is what its four bytes hold (30_encoding.md R120, R121). -/
theorem field_bytesN_of_fitsAbs (p : Params) {v : Int} (h : fitsAbs v = true) :
    field p (bytesN p.byteOrder 4 (tc 32 v)) = v := by
  obtain ⟨hlo, hhi⟩ := (fitsAbs_iff v).1 h
  exact field_bytesN p 4 v (by decide) hlo (Int.lt_add_one_of_le hhi)

/-- An offset that fits is what its two bytes hold (30_encoding.md R120, R121). -/
theorem field_bytesN_of_fitsRel (p : Params) {v : Int} (h : fitsRel v = true) :
    field p (bytesN p.byteOrder 2 (tc 16 v)) = v := by
  obtain ⟨hlo, hhi⟩ := (fitsRel_iff v).1 h
  exact field_bytesN p 2 v (by decide) (Int.le_trans (by decide) hlo) (Int.lt_add_one_of_le hhi)

/-- Settles O17: under `Fault` an offset is stored only if it fits, and then its field holds it. -/
theorem relativeOffsetsNeverWrap : Obligations.RelativeOffsetsNeverWrap := by
  intro s hm hp
  refine ⟨_, exec_encRel s, ?_⟩
  by_cases hfits : s.relFits = true
  · obtain ⟨hlat, hlon⟩ := (relFits_iff s).1 hfits
    obtain ⟨-, hb, -⟩ := putTx_stores hm (length_relFrame s)
    obtain ⟨-, -, hblat, hblon, -⟩ := relFields _ _ _ _ _ hb
    rw [encodeFrame_of_inRange (.inr hfits), ← field_two, ← field_two, hblat, hblon]
    exact .inl ⟨field_bytesN_of_fitsRel _ hlat, field_bytesN_of_fitsRel _ hlon, rfl⟩
  · rw [encodeFrame_of_outOfRange hp hfits]
    exact .inr ⟨rfl, rfl⟩

/-! ### Precision (R166, R167) -/

/-- Adding the rounded offset from a reference `r` gives a number back within half a unit, and exactly if its offset
is a multiple of the unit. -/
theorem roundDiv_restores (m : RoundMode) (c r : Int) {d : Nat} (hd : 0 < d) :
    2 * |r + roundDiv m (c - r) d * d - c| ≤ d ∧
      ((d : Int) ∣ c - r → r + roundDiv m (c - r) d * d = c) := by
  have he : r + roundDiv m (c - r) d * d - c = roundDiv m (c - r) d * d - (c - r) := by ring
  refine ⟨he ▸ roundDiv_bound m (c - r) d hd, ?_⟩
  rintro ⟨k, hk⟩
  rw [hk, mul_comm (d : Int) k, roundDiv_mul m k d hd, mul_comm k, ← hk]
  ring

theorem toAbs_restores (p : Params) (hv : p.Valid) (c : Int) :
    2 * |toAbs p c * qAbs p - c| ≤ qAbs p ∧ ((qAbs p : Int) ∣ c → toAbs p c * qAbs p = c) := by
  simpa [toAbs] using roundDiv_restores p.round c 0 (q_of_valid p hv).1

theorem toRel_restores (p : Params) (hv : p.Valid) (c r : Int) :
    2 * |r + toRel p c r * qRel p - c| ≤ qRel p ∧
      ((qRel p : Int) ∣ c - r → r + toRel p c r * qRel p = c) := by
  obtain ⟨hpos, hq, -⟩ := q_of_valid p hv
  exact roundDiv_restores p.round c r (by omega)

/-- The receiver's coordinates after the decode of an absolute frame are the sender's rounded ones in the receiver's
units, if they fit the field. -/
theorem decAbs_of_fits {r : State} {bo : ByteOrder} {la lo : Int} (hv : r.params.Valid)
    (hbo : r.params.byteOrder = bo) (hlen : r.rxlen = 9) (hla : fitsAbs la = true) (hlo : fitsAbs lo = true)
    (hlat : r.rxb.readBytes 0 4 = bytesN bo 4 (tc 32 la)) (hlon : r.rxb.readBytes 4 4 = bytesN bo 4 (tc 32 lo)) :
    ∃ u, exec .decAbs r = .next u ∧ u.status = .ok ∧ u.oage = r.rxb.read 8 ∧
      u.outLat = la * qAbs r.params ∧ u.outLon = lo * qAbs r.params := by
  subst hbo
  refine ⟨_, exec_decAbs_of_nine hlen, rfl, rfl, ?_, ?_⟩
  · rw [outLat_putFix, sext_tc_field_abs _ hv, hlat, field_bytesN_of_fitsAbs _ hla]
  · rw [outLon_putFix, sext_tc_field_abs _ hv, hlon, field_bytesN_of_fitsAbs _ hlo]

/-- The receiver's coordinates after the decode of a relative frame are the sender's rounded offsets in the receiver's
units, from the receiver's reference, if they fit the field. -/
theorem decRel_of_fits {r : State} {bo : ByteOrder} {dla dlo : Int} (hv : r.params.Valid)
    (hbo : r.params.byteOrder = bo) (hlen : r.rxlen = 7) (h0 : r.rxb.read 0 = Config.magic0)
    (h1 : r.rxb.read 1 = Config.magic1) (hdla : fitsRel dla = true) (hdlo : fitsRel dlo = true)
    (hlat : r.rxb.readBytes 2 2 = bytesN bo 2 (tc 16 dla)) (hlon : r.rxb.readBytes 4 2 = bytesN bo 2 (tc 16 dlo)) :
    ∃ u, exec .decRel r = .next u ∧ u.status = .ok ∧ u.oage = r.rxb.read 6 ∧
      u.outLat = r.params.refLatQ + dla * qRel r.params ∧
      u.outLon = r.params.refLonQ + dlo * qRel r.params := by
  subst hbo
  refine ⟨_, exec_decRel_of_magic hlen h0 h1, rfl, rfl, ?_, ?_⟩
  · rw [outLat_putFix, sext_tc_field_rel _ hv _ _ (.inl rfl), hlat, field_bytesN_of_fitsRel _ hdla]
  · rw [outLon_putFix, sext_tc_field_rel _ hv _ _ (.inr rfl), hlon, field_bytesN_of_fitsRel _ hdlo]

/-- Settles O12: the frame holds the rounded coordinates, and rounding is within half a unit. -/
theorem absoluteRoundTrip : Obligations.AbsoluteRoundTrip := by
  intro s t r hv hm hrange henc hok hp hlen hb
  obtain ⟨⟨hblat, hblon, hage⟩, hfits⟩ := received_absFrame hm henc hok hb
  obtain ⟨hla, hlo⟩ := hrange.elim (fun h => (absFits_iff s).1 (hfits h)) id
  obtain ⟨u, hu, hs, ha, hlat, hlon⟩ :=
    decAbs_of_fits (hp ▸ hv) (congrArg Params.byteOrder hp) hlen hla hlo hblat hblon
  obtain ⟨hlatBound, hlatExact⟩ := toAbs_restores _ hv s.inLat
  obtain ⟨hlonBound, hlonExact⟩ := toAbs_restores _ hv s.inLon
  rw [hp] at hlat hlon
  exact ⟨u, hu, hs, ha.trans hage, hlat ▸ hlatBound, hlon ▸ hlonBound, hlat ▸ hlatExact, hlon ▸ hlonExact⟩

/-- Settles O13: the frame holds the rounded offsets, and rounding is within half a unit. -/
theorem relativeRoundTrip : Obligations.RelativeRoundTrip := by
  intro s t r hv hm hfault henc hok hp hlen hb
  obtain ⟨⟨h0, h1, hblat, hblon, hage⟩, hfits⟩ := received_relFrame hm henc hok hb
  obtain ⟨hdla, hdlo⟩ := (relFits_iff s).1 (hfits hfault)
  obtain ⟨u, hu, hs, ha, hlat, hlon⟩ :=
    decRel_of_fits (hp ▸ hv) (congrArg Params.byteOrder hp) hlen h0 h1 hdla hdlo hblat hblon
  obtain ⟨hlatBound, hlatExact⟩ := toRel_restores _ hv s.inLat s.params.refLatQ
  obtain ⟨hlonBound, hlonExact⟩ := toRel_restores _ hv s.inLon s.params.refLonQ
  rw [hp] at hlat hlon
  exact ⟨u, hu, hs, ha.trans hage, hlat ▸ hlatBound, hlon ▸ hlonBound, hlat ▸ hlatExact, hlon ▸ hlonExact⟩

end Sys2Proof.Machine
end

section
/-! PROOF. The statements of 41_link_layer.md: the micro-steps of `INIT` (R185 to R192) and `INIT` as one big step
(R197), the data exchanges (R200, R202, R203), and the blink steps (R205, R206). Their lemmas stand before them. -/

namespace Sys2Proof.Machine

/-! ### The peripheral's answers (00_scope.md R33) -/

section Draws

variable {r : Radio} {b : Bool} {q : List Bool}

theorem bringup_of_cons (h : r.bringup = b :: q) :
    r.bringupAnswer = b ∧ r.afterBringup = { r with bringup := q } := by
  simp only [Radio.bringupAnswer, Radio.afterBringup, h, and_self]

theorem afterBringup_of_nil (h : r.bringup = []) : r.afterBringup = { r with count := r.count + 1 } := by
  simp only [Radio.afterBringup, h]

theorem setfreq_of_cons (h : r.setfreq = b :: q) :
    r.setfreqAnswer = b ∧ r.afterSetfreq = { r with setfreq := q } := by
  simp only [Radio.setfreqAnswer, Radio.afterSetfreq, h, and_self]

theorem afterSetfreq_of_nil (h : r.setfreq = []) : r.afterSetfreq = { r with count := r.count + 1 } := by
  simp only [Radio.afterSetfreq, h]

theorem sendbytes_of_cons (h : r.sendbytes = b :: q) :
    r.sendbytesAnswer = b ∧ r.afterSendbytes = { r with sendbytes := q } := by
  simp only [Radio.sendbytesAnswer, Radio.afterSendbytes, h, and_self]

theorem afterSendbytes_of_nil (h : r.sendbytes = []) : r.afterSendbytes = { r with count := r.count + 1 } := by
  simp only [Radio.afterSendbytes, h]

theorem recvbytes_of_cons {d : RecvDraw} {q : List RecvDraw} (h : r.recvbytes = d :: q) :
    r.recvbytesDraw = d ∧ r.afterRecvbytes = { r with recvbytes := q } := by
  simp only [Radio.recvbytesDraw, Radio.afterRecvbytes, h, and_self]

end Draws

/-! ### The micro-steps of `INIT` (R185 to R192) -/

section MicroSteps

variable {s : State}

/-- A half of the pulse that stays in its link state (R186). -/
theorem driveReset_setPc {l : LState} (hl : s.lstate = l) (pin : Byte) (level : Bool) (d : DelayKind) (k : BitVec 3) :
    (s.driveReset pin level d).setPc l k =
      { s with rstLine := level, trace := s.trace ++ [.rstLine pin level, .delay d], istep := k } := by
  subst hl; rfl

/-- A micro-step that stays in its link state is its exchange and the next pc (R188 to R191). -/
theorem exchange_setPc {l : LState} (hl : s.lstate = l) (op : Instr) (a : Answer) (r : Radio) (k : BitVec 3) :
    (s.exchange op a r).setPc l k = { s with trace := s.trace ++ [.portCall op a], radio := r, istep := k } := by
  subst hl; rfl

theorem exec_init_of_wrongState (hl : s.lstate ≠ .uninitialized) :
    exec .init s = .next { s with status := .wrongState } := if_pos hl

theorem exec_init_of_illegal (hl : s.lstate = .uninitialized) (hc : cfgIllegal s.cfg = true) :
    exec .init s = .next { s with status := .cfgInvalid } :=
  (if_neg (not_not.2 hl)).trans (if_pos hc)

theorem exec_init_of_legal (hl : s.lstate = .uninitialized) (hc : cfgIllegal s.cfg = false) :
    exec .init s = .next { s with lcfg := s.cfg, cfglock := true, lstate := .resetting, istep := 0 } :=
  (if_neg (not_not.2 hl)).trans (if_neg (by simp [hc]))

theorem exec_reset_high (pin : Byte) (h : s.lstate = .resetting ∧ s.istep = 1) :
    exec (.reset pin) s = .next ((s.driveReset pin true .resetHigh).setPc .initializing 0) := if_pos h

theorem exec_reset_low (pin : Byte) (h : ¬ (s.lstate = .resetting ∧ s.istep = 1)) :
    exec (.reset pin) s = .next ((s.driveReset pin false .resetLow).setPc .resetting 1) := if_neg h

/-- The answer to `BRINGUP` decides between going on and the fatal exception. -/
theorem exec_bringup (cs irq : Byte) :
    exec (.bringup cs irq) s = .next
      (if s.radio.bringupAnswer then
        (s.exchange (.bringup cs irq) (.bool true) s.radio.afterBringup).setPc .initializing 1
      else (s.exchange (.bringup cs irq) (.bool false) s.radio.afterBringup).raise (.fatalInit .bringUp)) := by
  simp only [exec, execBringup]
  cases s.radio.bringupAnswer <;> rfl

/-- The answer to `SETFREQ` decides between going on and the fatal exception. -/
theorem exec_setfreq (mhz : Word) :
    exec (.setfreq mhz) s = .next
      (if s.radio.setfreqAnswer then
        (s.exchange (.setfreq mhz) (.bool true) s.radio.afterSetfreq).setPc .initializing 2
      else (s.exchange (.setfreq mhz) (.bool false) s.radio.afterSetfreq).raise (.fatalInit .setFreq)) := by
  simp only [exec, execSetfreq]
  cases s.radio.setfreqAnswer <;> rfl

/-- With the power set `INIT` ends. -/
theorem exec_settxpower (dbm : Byte) (boost : Bool) :
    exec (.settxpower dbm boost) s =
      .next { s with trace := s.trace ++ [.portCall (.settxpower dbm boost) .none], status := .ok, lstate := .ready,
                     istep := 0 } := by
  simp only [exec, execSettxpower, initDone_eq, State.exchange, State.emit]

end MicroSteps

/-- Settles O20: the state is tested first, then the power. -/
theorem initIsAcceptedOrRefused : Obligations.InitIsAcceptedOrRefused := by
  refine ⟨rfl, fun s => ⟨exec_init_of_wrongState, fun hl hen hp => ?_, fun hl hp => ?_⟩⟩
  · have hc : cfgIllegal s.cfg ≠ false := fun hc => hp ((cfgIllegal_eq_false s.cfg).1 hc hen)
    exact exec_init_of_illegal hl (Bool.eq_true_of_not_eq_false hc)
  · exact exec_init_of_legal hl ((cfgIllegal_eq_false s.cfg).2 hp)

/-- Settles O21. -/
theorem resetPulseDrivesTheLineLowThenHigh : Obligations.ResetPulseDrivesTheLineLowThenHigh := by
  refine fun s hr hl => ⟨fun hk => ⟨step_resetting_zero s hr hl hk, ?_⟩,
    fun hk => ⟨step_resetting_one s hr hl hk, exec_reset_high _ ⟨hl, hk⟩⟩⟩
  rw [exec_reset_low _ (by simp [hk]), driveReset_setPc hl]

/-- Settles O22, for each answer. -/
theorem bringupContinuesOrFails : Obligations.BringupContinuesOrFails := by
  refine fun s hr hl hk => ⟨step_bringup s hr hl hk, s.radio.bringupAnswer, s.radio.afterBringup,
    fun _ _ => bringup_of_cons, afterBringup_of_nil, ?_⟩
  rw [exec_bringup, exchange_setPc hl, raise_fatal_eq]
  cases s.radio.bringupAnswer <;> rfl

/-- Settles O23, for each answer. -/
theorem setfreqContinuesOrFails : Obligations.SetfreqContinuesOrFails := by
  refine fun s hr hl hk => ⟨step_setfreq s hr hl hk, s.radio.setfreqAnswer, s.radio.afterSetfreq,
    fun _ _ => setfreq_of_cons, afterSetfreq_of_nil, ?_⟩
  rw [exec_setfreq, exchange_setPc hl, raise_fatal_eq]
  cases s.radio.setfreqAnswer <;> rfl

/-- Settles O24. -/
theorem addressThenPromiscuousOff : Obligations.AddressThenPromiscuousOff := by
  refine fun s hr hl => ⟨fun hk => ⟨step_setaddr s hr hl hk, ?_⟩, fun hk => ⟨step_setpromisc s hr hl hk, ?_⟩⟩
  · exact congrArg Host.Outcome.next (exchange_setPc hl _ _ _ 3)
  · exact congrArg Host.Outcome.next (exchange_setPc hl _ _ _ 4)

/-- Settles O25. -/
theorem powerThenReady : Obligations.PowerThenReady := fun s hr hl hk =>
  ⟨fun he => ⟨step_settxpower s hr hl hk he, exec_settxpower _ _⟩, step_initDone s hr hl hk⟩

/-! ### `SEND` and `RECV` (R200 to R203) -/

section DataExchanges

variable {s : State}

theorem exec_send_of_ready (hl : s.lstate = .ready) :
    exec .send s = .next (s.sendBytes (s.txb.readBytes 0 s.txlen.toNat)) := if_neg (not_not.2 hl)

theorem exec_recv_of_ready (hl : s.lstate = .ready) :
    exec .recv s = .next (s.recvBytes s.rxTmoEn s.rxTmo) := if_neg (not_not.2 hl)

/-- A delivered byte sequence is stored and ends the command (R202). -/
theorem recvBytes_of_bytes {l : List Byte} (hd : s.radio.recvbytesDraw = .bytes l) (e : Bool) (m : Word) :
    s.recvBytes e m =
      { s with trace := s.trace ++ [.portCall (.recvbytes e m) (.bytes l)], radio := s.radio.afterRecvbytes,
               rxb := s.rxb.writeBytes 0 (l.take s.params.rxCap), rxlen := BitVec.ofNat 8 (min l.length 255),
               status := .ok, rxWait := false } := by
  simp [State.recvBytes, recvOutcome, hd, State.exchange, State.emit, State.putRx, State.setStatus]

/-- The answer nothing ends the command, and so does a withheld answer when there is a timeout (R203, log 6). -/
theorem recvBytes_of_nothing {e : Bool}
    (hd : s.radio.recvbytesDraw = .nothing ∨ (s.radio.recvbytesDraw = .withheld ∧ e = true)) (m : Word) :
    s.recvBytes e m =
      { s with trace := s.trace ++ [.portCall (.recvbytes e m) .nothing], radio := s.radio.afterRecvbytes,
               rxlen := 0, status := .receiveError, rxWait := false } := by
  rcases hd with hd | ⟨hd, rfl⟩ <;>
    simp [State.recvBytes, recvOutcome, hd, State.exchange, State.emit, State.raise, State.setStatus, excStatus]

/-- Without a timeout a withheld answer leaves the command in execution (R202, log 6). -/
theorem recvBytes_of_withheld {e : Bool} (hd : s.radio.recvbytesDraw = .withheld) (he : e = false) (m : Word) :
    s.recvBytes e m = { s with radio := s.radio.afterRecvbytes, rxWait := true } := by
  simp [State.recvBytes, recvOutcome, hd, he]

end DataExchanges

/-- The stored part of a byte sequence reads back, and the bytes past it are as they were (R202). -/
theorem writeBytes_take_stores {m : Memory} (hm : Memory.wf m = true) (l : List Byte) (cap : Nat) :
    (m.writeBytes 0 (l.take cap)).readBytes 0 (min l.length cap) = l.take cap ∧
      ∀ i, min l.length cap ≤ i → (m.writeBytes 0 (l.take cap)).read i = m.read i := by
  have hlen : (l.take cap).length = min l.length cap := by rw [List.length_take, Nat.min_comm]
  rw [← hlen]
  exact ⟨readBytes_writeBytes 0 _ hm, fun i hi => read_writeBytes_past 0 i _ hm (by omega)⟩

/-- Settles O28. -/
theorem sendHandsOverTheFrame : Obligations.SendHandsOverTheFrame := by
  refine ⟨rfl, fun s => ⟨fun hl => if_pos hl, fun hl => ?_⟩⟩
  refine ⟨s.radio.sendbytesAnswer, _, fun _ _ => sendbytes_of_cons, afterSendbytes_of_nil, ?_⟩
  rw [exec_send_of_ready hl, sendBytes_eq]

/-- Settles O31, from what each exchange does with each answer. -/
theorem dataExchangesComplete : Obligations.DataExchangesComplete := by
  refine fun s hm => ⟨fun buf => ⟨s.radio.sendbytesAnswer, _, fun _ _ => sendbytes_of_cons, afterSendbytes_of_nil,
    congrArg Host.Outcome.next (sendBytes_eq buf s)⟩, fun e m => ⟨fun l hd => ?_, fun hd => ?_, fun hd he => ?_⟩⟩
  · exact ⟨_, congrArg Host.Outcome.next (recvBytes_of_bytes hd e m), rfl, writeBytes_take_stores hm l _⟩
  · exact congrArg Host.Outcome.next (recvBytes_of_nothing hd m)
  · exact congrArg Host.Outcome.next (recvBytes_of_withheld hd he m)

/-- Settles O29: in `Ready` a `RECV` is the exchange with the timeout registers. -/
theorem recvStoresWhatIsDelivered : Obligations.RecvStoresWhatIsDelivered := by
  refine ⟨rfl, fun s hm => ⟨fun hl => if_pos hl, fun l hl hd => ?_, fun hl hd => ?_⟩⟩
  · refine ⟨_, (exec_recv_of_ready hl).trans (congrArg Host.Outcome.next (recvBytes_of_bytes hd _ _)), rfl,
      fun i hi hcap => ?_, (writeBytes_take_stores hm l _).2⟩
    rw [read_writeBytes _ _ _ hm, dif_pos (by simp [hi, hcap])]
    simp
  · rw [exec_recv_of_ready hl, recvBytes_of_nothing (.inl hd)]

/-- Settles O54: the invariant says that the wait is one in `Ready` without a timeout, and the step is the
exchange. -/
theorem waitingRecvEndsWithItsAnswer : Obligations.WaitingRecvEndsWithItsAnswer := by
  intro s hinv hr hw
  obtain ⟨hl, he⟩ := hinv.wait hw
  have hstep : step s = exec (.recvbytes false s.rxTmo) s := he ▸ step_wait s hr (.inr hl) hw
  have hidle : ∀ t : State, t.lstate = s.lstate → t.rxWait = false → t.idle = true := fun t htl htw =>
    (idle_iff t).2 ⟨.inr (htl.trans hl), htw⟩
  refine ⟨hstep, fun l hd => ?_, fun hd => ?_, fun hd => ?_⟩
  · exact ⟨_, hstep.trans (congrArg Host.Outcome.next (recvBytes_of_bytes hd _ _)), hidle _ rfl rfl, rfl,
      writeBytes_take_stores hinv.rxb.1 l _⟩
  · exact ⟨_, hstep.trans (congrArg Host.Outcome.next (recvBytes_of_nothing (.inl hd) _)), hidle _ rfl rfl, rfl⟩
  · refine hstep.trans ((congrArg Host.Outcome.next (recvBytes_of_withheld hd rfl _)).trans ?_)
    rw [← hw]

/-- A `RECV` waits through as many steps as the peripheral withholds its answer (70_reset_and_hazards.md R298). -/
theorem steps_withheld {n : Nat} {q : List RecvDraw} {s : State} (hr : s.resetReq = false) (hl : s.lstate = .ready)
    (he : s.rxTmoEn = false) (hw : s.rxWait = true) (hq : s.radio.recvbytes = List.replicate n .withheld ++ q) :
    steps n s = .next { s with radio := { s.radio with recvbytes := q } } := by
  induction n generalizing s with
  | zero => subst hq; rfl
  | succ n ih =>
    obtain ⟨hd, hafter⟩ := recvbytes_of_cons hq
    have hstep : step s = .next { s with radio := s.radio.afterRecvbytes, rxWait := true } :=
      (step_wait s hr (.inr hl) hw).trans (congrArg Host.Outcome.next (recvBytes_of_withheld hd he _))
    rw [steps_succ n hstep]
    refine (ih (s := { s with radio := s.radio.afterRecvbytes, rxWait := true }) hr hl he rfl
      (congrArg Radio.recvbytes hafter)).trans ?_
    rw [hafter, hw]

/-- Settles O30: the first draw decides whether the command waits, and the others keep it waiting. -/
theorem unansweredRecvWaits : Obligations.UnansweredRecvWaits := by
  intro s n q hr hl hq
  obtain ⟨hd, hafter⟩ := recvbytes_of_cons hq
  rw [exec_recv_of_ready hl]
  refine ⟨fun he => ⟨_, congrArg Host.Outcome.next (recvBytes_of_withheld hd he _), ?_⟩,
    fun he => ⟨_, congrArg Host.Outcome.next (recvBytes_of_nothing (.inr ⟨hd, he⟩) _), rfl, rfl, rfl, rfl⟩⟩
  refine (steps_withheld (s := { s with radio := s.radio.afterRecvbytes, rxWait := true }) hr hl he rfl
    (congrArg Radio.recvbytes hafter)).trans ?_
  rw [hafter]

/-! ### `Faulted` (R205, R206) -/

/-- Settles O32, by induction on the number of steps. -/
theorem faultedBlinksForEver : Obligations.FaultedBlinksForEver := by
  intro n
  induction n with
  | zero => intro s _ _ _; simp [steps, blinkEvents]
  | succ n ih =>
    intro s hr hl hk
    rw [steps_succ n (step_blink s hr hl hk), ih s.blink hr hl hk]
    have hind : (if n % 2 = 0 then !s.ind else s.ind) = if (n + 1) % 2 = 0 then s.ind else !s.ind := by
      rcases Nat.mod_two_eq_zero_or_one n with hn | hn <;> simp [hn, Nat.add_mod]
    simp [State.blink, State.emit, blinkEvents, hind]

/-! ### `INIT` as one big step (R197) -/

/-- What an accepted `INIT` has made of `s` at `(Initializing, k)`: it has recorded `es` and left the peripheral at
`r`. -/
def State.initializing (s : State) (es : List Event) (r : Radio) (k : BitVec 3) : State :=
  { s with lcfg := s.cfg, cfglock := true, lstate := .initializing, istep := k, rstLine := true,
           trace := s.trace ++ es, radio := r }

/-- What it has made of `s` after a false answer. -/
def State.initFailed (s : State) (es : List Event) (r : Radio) (c : InitCause) : State :=
  { s with lcfg := s.cfg, cfglock := true, lstate := .faulted, istep := 0, fcause := some c, status := .fatalInit,
           rstLine := true, trace := s.trace ++ es, radio := r }

section BigStep

variable {s : State} {es : List Event} {r : Radio} (hr : s.resetReq = false)
include hr

/-- The reset pulse (R186, R187). -/
theorem steps_pulse (hl : s.lstate = .resetting) (hk : s.istep = 0) (n : Nat) :
    steps (n + 2) s =
      steps n { s with rstLine := true, trace := s.trace ++ resetEvents s.lcfg.resetPin, lstate := .initializing,
                       istep := 0 } := by
  rw [steps_succ (n + 1) ((step_resetting_zero s hr hl hk).trans (exec_reset_low _ (by simp [hk]))),
    steps_succ n ((step_resetting_one ((s.driveReset _ _ _).setPc .resetting 1) hr rfl rfl).trans
      (exec_reset_high _ ⟨rfl, rfl⟩))]
  simp [State.driveReset, State.setPc, State.emit, resetEvents]

/-- An accepted `INIT` is at `(Initializing, 0)` after the pulse (R185 to R187). -/
theorem steps_accepted (n : Nat) :
    steps (n + 2) { s with lcfg := s.cfg, cfglock := true, lstate := .resetting, istep := 0 } =
      steps n (s.initializing (resetEvents s.cfg.resetPin) s.radio 0) :=
  steps_pulse (s := { s with lcfg := s.cfg, cfglock := true, lstate := .resetting, istep := 0 }) hr rfl rfl n

theorem step_initializing_zero : step (s.initializing es r 0) = .next
    (if r.bringupAnswer then
      s.initializing (es ++ [.portCall (.bringup s.cfg.csPin s.cfg.irqPin) (.bool true)]) r.afterBringup 1
    else s.initFailed (es ++ [.portCall (.bringup s.cfg.csPin s.cfg.irqPin) (.bool false)]) r.afterBringup
      .bringUp) := by
  rw [step_bringup (s.initializing es r 0) hr rfl rfl, exec_bringup, raise_fatal_eq]
  simp [State.initializing, State.initFailed, State.exchange, State.emit, State.setPc]

theorem step_initializing_one : step (s.initializing es r 1) = .next
    (if r.setfreqAnswer then
      s.initializing (es ++ [.portCall (.setfreq s.cfg.freq) (.bool true)]) r.afterSetfreq 2
    else s.initFailed (es ++ [.portCall (.setfreq s.cfg.freq) (.bool false)]) r.afterSetfreq .setFreq) := by
  rw [step_setfreq (s.initializing es r 1) hr rfl rfl, exec_setfreq, raise_fatal_eq]
  simp [State.initializing, State.initFailed, State.exchange, State.emit, State.setPc]

theorem step_initializing_two : step (s.initializing es r 2) = .next
    (s.initializing (es ++ [.portCall (.setaddr s.cfg.addr) .none]) r 3) := by
  rw [step_setaddr (s.initializing es r 2) hr rfl rfl, exec, execSetaddr]
  simp [State.initializing, State.exchange, State.emit, State.setPc]

theorem step_initializing_three : step (s.initializing es r 3) = .next
    (s.initializing (es ++ [.portCall (.setpromisc false) .none]) r 4) := by
  rw [step_setpromisc (s.initializing es r 3) hr rfl rfl, exec, execSetpromisc]
  simp [State.initializing, State.exchange, State.emit, State.setPc]

theorem step_initializing_four : step (s.initializing es r 4) = .next
    { s with lcfg := s.cfg, cfglock := true, lstate := .ready, istep := 0, status := .ok, rstLine := true,
             trace := s.trace ++ (es ++ if s.cfg.txpEn then
               [.portCall (.settxpower s.cfg.txp s.params.useBoostPin) .none] else []),
             radio := r } := by
  cases he : s.cfg.txpEn with
  | true =>
    rw [step_settxpower (s.initializing es r 4) hr rfl rfl he, exec_settxpower]
    simp [State.initializing]
  | false =>
    rw [step_initDone (s.initializing es r 4) hr rfl rfl he, initDone_eq]
    simp [State.initializing]

/-- After a false answer there are only blink steps (R205). -/
theorem steps_initFailed (n : Nat) (c : InitCause) : steps n (s.initFailed es r c) = .next
    { s with lcfg := s.cfg, cfglock := true, lstate := .faulted, istep := 0, fcause := some c, status := .fatalInit,
             rstLine := true, ind := if n % 2 = 0 then s.ind else !s.ind,
             trace := s.trace ++ es ++ blinkEvents n (!s.ind), radio := r } :=
  faultedBlinksForEver n _ hr rfl rfl

end BigStep

/-- Settles O27: the reset pulse, and then the micro-steps up to a false answer or to `Ready`. -/
theorem initIsOneBigStep : Obligations.InitIsOneBigStep := by
  rintro s b1 b2 hr hl hi hfc hc rfl rfl
  obtain ⟨-, hw⟩ := (idle_iff s).1 hi
  refine ⟨_, exec_init_of_legal hl hc, fun hb1 n => ?_, fun hb1 hb2 n => ?_, fun hb1 hb2 => ?_⟩
  · rw [Nat.add_comm, steps_accepted hr, steps_succ _ (step_initializing_zero hr), hb1]
    simp [steps_initFailed hr, initEvents]
  · rw [Nat.add_comm, steps_accepted hr, steps_succ _ (step_initializing_zero hr), hb1, if_pos rfl,
      steps_succ _ (step_initializing_one hr), hb2]
    simp [steps_initFailed hr, initEvents]
  · refine ⟨_, ?_, ?_, rfl⟩
    · rw [steps_accepted hr, steps_succ _ (step_initializing_zero hr), hb1, if_pos rfl,
        steps_succ _ (step_initializing_one hr), hb2, if_pos rfl, steps_succ _ (step_initializing_two hr),
        steps_succ _ (step_initializing_three hr), steps_succ _ (step_initializing_four hr)]
      simp [steps, initEvents, hfc]
    · exact (idle_iff _).2 ⟨.inr rfl, hw⟩

end Sys2Proof.Machine
end

section
/-! PROOF. The statements of 41_link_layer.md on the link state over steps (R182, R207) and on the order of the port
events, of which it follows that there is no retry (R198). Their lemmas stand before them. -/

namespace Sys2Proof.Machine

/-! ### The link state over steps (R182, R207) -/

section Frames

variable (s : State)

@[simp] theorem sendBytes_resetReq (buf : List Byte) : (s.sendBytes buf).resetReq = s.resetReq := by rw [sendBytes_eq]
@[simp] theorem recvBytes_resetReq (e : Bool) (m : Word) : (s.recvBytes e m).resetReq = s.resetReq := by
  rw [recvBytes_frame]
@[simp] theorem hostWrite_resetReq (n : BitVec 8) (v : Int) : (s.hostWrite n v).resetReq = s.resetReq := by
  rw [hostWrite_frame]
@[simp] theorem loadRx_resetReq (bs : List Byte) : (s.loadRx bs).resetReq = s.resetReq := rfl

end Frames

/-- A command leaves `LSTATE` where it is, or it is `INIT`, byte 0x10, and accepted (R185). -/
theorem commanded_lstate {b : Byte} {s t : State} (h : Commanded b s t) :
    t.lstate = s.lstate ∨
      (b = 0x10 ∧ s.lstate = .uninitialized ∧ t.lstate = .resetting ∧ cfgIllegal s.cfg = false) := by
  cases h with
  | raised e he ht => rw [ht, raise_returned s e he]; exact .inl rfl
  | accepted hb hl hc ht => subst ht; exact .inr ⟨hb, hl, rfl, hc⟩
  | encoded _ _ ht | decoded _ _ _ ht | sent _ ht | received _ ht => subst ht; simp

/-- Settles O34, step by step. -/
theorem linkStateFollowsTheTable : Obligations.LinkStateFollowsTheTable := by
  refine fun s t h => ⟨fun hr => ?_, fun hr hne => ?_⟩
  · rw [step_reset s hr] at h; injection h with h; subst h; rfl
  · cases step_cases h with
    | reset hr' => rw [hr] at hr'; cases hr'
    | command v rest _ _ hh ht =>
      obtain hl | ⟨hb, hl, hl', hc⟩ := commanded_lstate (exec_command ht)
      · exact absurd hl hne
      · refine .inl ⟨hl, hl', hc, v, rest, hh, ?_⟩
        have hv := congrArg BitVec.toNat hb
        rwa [BitVec.toNat_ofNat, Nat.mod_eq_of_lt (tc_lt 8 v)] at hv
    | pulseHigh _ hl hk ht => subst ht; exact .inr (.inl ⟨hl, rfl, hk⟩)
    | bringupFailed _ hl hk hb ht => subst ht; exact .inr (.inr (.inl ⟨hl, rfl, hk, hb⟩))
    | setfreqFailed _ hl hk hb ht => subst ht; exact .inr (.inr (.inr (.inl ⟨hl, rfl, hk, hb⟩)))
    | powerSet _ hl hk _ ht | noPower _ hl hk _ ht => subst ht; exact .inr (.inr (.inr (.inr ⟨hl, rfl, hk⟩)))
    | pulseLow _ hl _ ht | broughtUp _ hl _ _ ht | freqSet _ hl _ _ ht | addrSet _ hl _ ht | promiscOff _ hl _ ht =>
      subst ht; exact absurd hl.symm hne
    | blinked _ _ _ ht | waited _ _ _ ht | nothing _ _ _ ht | written _ _ _ _ _ _ _ ht | read _ _ _ _ _ ht
    | presented _ _ _ _ _ ht => subst ht; simp at hne

/-- The block does not raise its own reset line (log 8). -/
theorem step_resetReq {s t : State} (h : step s = .next t) : t.resetReq = false := by
  cases step_cases h with
  | reset _ ht => subst ht; rfl
  | command v rest hr _ _ ht =>
    cases exec_command ht with
    | raised _ _ ht | encoded _ _ ht | decoded _ _ _ ht | accepted _ _ _ ht | sent _ ht | received _ ht =>
      subst ht; simpa using hr
  | pulseLow hr _ _ ht | pulseHigh hr _ _ ht | broughtUp hr _ _ _ ht | bringupFailed hr _ _ _ ht
  | freqSet hr _ _ _ ht | setfreqFailed hr _ _ _ ht | addrSet hr _ _ ht | promiscOff hr _ _ ht
  | powerSet hr _ _ _ ht | noPower hr _ _ _ ht | blinked hr _ _ ht | waited hr _ _ ht | nothing hr _ _ ht
  | written _ _ _ hr _ _ _ ht | read _ _ hr _ _ ht | presented _ _ hr _ _ ht => subst ht; simpa using hr

/-- Only an accepted `INIT` latches a configuration (10_state.md R56). -/
theorem step_lcfg {s t : State} (hr : s.resetReq = false) (hl : s.lstate ≠ .uninitialized) (h : step s = .next t) :
    t.lcfg = s.lcfg := by
  cases step_cases h with
  | reset hr' => rw [hr] at hr'; cases hr'
  | command _ _ _ _ _ ht => exact (commanded_keeps_configuration (exec_command ht) hl).2.1
  | pulseLow _ _ _ ht | pulseHigh _ _ _ ht | broughtUp _ _ _ _ ht | bringupFailed _ _ _ _ ht
  | freqSet _ _ _ _ ht | setfreqFailed _ _ _ _ ht | addrSet _ _ _ ht | promiscOff _ _ _ ht
  | powerSet _ _ _ _ ht | noPower _ _ _ _ ht | blinked _ _ _ ht | waited _ _ _ ht | nothing _ _ _ ht
  | written _ _ _ _ _ _ _ ht | read _ _ _ _ _ ht | presented _ _ _ _ _ ht => subst ht; simp

/-- No row of the transition table leaves `Ready` (R207). -/
theorem step_ready {s t : State} (hr : s.resetReq = false) (hl : s.lstate = .ready) (h : step s = .next t) :
    t.lstate = .ready := by
  by_contra hne
  obtain ⟨hu, -⟩ | ⟨hu, -⟩ | ⟨hu, -⟩ | ⟨hu, -⟩ | ⟨hu, -⟩ :=
    (linkStateFollowsTheTable s t h).2 hr fun hs => hne (hs.trans hl)
  all_goals rw [hl] at hu; cases hu

/-- Settles O33, by induction on the number of steps: a step in `Ready` answers and stays there. -/
theorem readyIsNeverLeft : Obligations.ReadyIsNeverLeft := by
  intro n
  induction n with
  | zero => exact fun s hr hl => ⟨s, rfl, hl, hr, rfl⟩
  | succ n ih =>
    intro s hr hl
    obtain ⟨t, ht⟩ := step_hostState_next s hr (.inr hl)
    obtain ⟨u, hu, hul, hur, huc⟩ := ih t (step_resetReq ht) (step_ready hr hl ht)
    exact ⟨u, (steps_succ n ht).trans hu, hul, hur, huc.trans (step_lcfg hr (by simp [hl]) ht)⟩

/-! ### No retry (R198) -/

section TraceOrder

variable {s t : State}

/-- The order of the events speaks of the pc, the configuration, the cause, the indicator and the trace only. -/
theorem TraceOrder.congr (h : TraceOrder s)
    (he : (t.lstate, t.istep, t.lcfg, t.params, t.fcause, t.ind, t.trace) =
      (s.lstate, s.istep, s.lcfg, s.params, s.fcause, s.ind, s.trace)) : TraceOrder t := by
  simp only [Prod.mk.injEq] at he
  obtain ⟨h1, h2, h3, h4, h5, h6, h7⟩ := he
  unfold TraceOrder
  rw [h1, h2, h3, h4, h5, h6, h7]
  exact h

theorem traceOrder_uninitialized (hl : s.lstate = .uninitialized) : TraceOrder s ↔ s.trace = [] := by
  rw [TraceOrder, hl]

theorem traceOrder_resetting (hl : s.lstate = .resetting) :
    TraceOrder s ↔ s.trace = (resetEvents s.lcfg.resetPin).take (2 * s.istep.toNat) := by
  rw [TraceOrder, hl]

theorem traceOrder_initializing (hl : s.lstate = .initializing) :
    TraceOrder s ↔ s.trace = (initEvents { s.lcfg with txpEn := false } s.params.useBoostPin true true).take
      (4 + s.istep.toNat) := by
  rw [TraceOrder, hl]

theorem traceOrder_ready (hl : s.lstate = .ready) :
    TraceOrder s ↔
      ∃ l, s.trace = initEvents s.lcfg s.params.useBoostPin true true ++ l ∧ l.all isTransfer = true := by
  rw [TraceOrder, hl]

theorem traceOrder_faulted (hl : s.lstate = .faulted) :
    TraceOrder s ↔ ∃ n, s.ind = decide (n % 2 = 1) ∧
      ((s.fcause = some .bringUp ∧
          s.trace = initEvents s.lcfg s.params.useBoostPin false false ++ blinkEvents n true) ∨
        (s.fcause = some .setFreq ∧
          s.trace = initEvents s.lcfg s.params.useBoostPin true false ++ blinkEvents n true)) := by
  rw [TraceOrder, hl]

/-- `n + 1` blink steps are `n` of them and one more. -/
theorem blinkEvents_succ (n : Nat) (level : Bool) :
    blinkEvents (n + 1) level = blinkEvents n level ++ [.indToggle (level ^^ decide (n % 2 = 1)), .delay .blink] := by
  induction n generalizing level with
  | zero => simp [blinkEvents]
  | succ n ih =>
    rw [blinkEvents, ih, blinkEvents]
    rcases Nat.mod_two_eq_zero_or_one n with hn | hn <;> simp [hn, Nat.add_mod]

/-- In `Ready` data exchanges follow the events of `INIT`. -/
theorem TraceOrder.transfer (h : TraceOrder s) (hl : s.lstate = .ready) {e : Event} (he : isTransfer e = true) :
    TraceOrder (s.emit [e]) := by
  obtain ⟨l, htrace, hall⟩ := (traceOrder_ready hl).1 h
  exact (traceOrder_ready (s := s.emit [e]) hl).2 ⟨l ++ [e], by simp [htrace], by simp [hall, he]⟩

theorem TraceOrder.sendBytes (h : TraceOrder s) (hl : s.lstate = .ready) (buf : List Byte) :
    TraceOrder (s.sendBytes buf) := by
  rw [sendBytes_eq]
  exact (h.transfer hl (e := .portCall (.sendbytes buf) (.bool s.radio.sendbytesAnswer)) rfl).congr rfl

theorem TraceOrder.recvBytes (h : TraceOrder s) (hl : s.lstate = .ready) (e : Bool) (m : Word) :
    TraceOrder (s.recvBytes e m) := by
  cases recvBytes_cases e m s with
  | withheld _ _ ht => rw [ht]; exact h.congr rfl
  | nothing _ ht => rw [ht]; exact (h.transfer hl (e := .portCall (.recvbytes e m) .nothing) rfl).congr rfl
  | bytes l _ ht => rw [ht]; exact (h.transfer hl (e := .portCall (.recvbytes e m) (.bytes l)) rfl).congr rfl

theorem TraceOrder.blink (h : TraceOrder s) (hl : s.lstate = .faulted) : TraceOrder s.blink := by
  obtain ⟨n, hind, htrace⟩ := (traceOrder_faulted hl).1 h
  refine (traceOrder_faulted (s := s.blink) hl).2 ⟨n + 1, ?_, ?_⟩
  · rcases Nat.mod_two_eq_zero_or_one n with hn | hn <;> simp [hind, hn, Nat.add_mod]
  · rw [blinkEvents_succ, Bool.true_xor, ← hind]
    simpa [← List.append_assoc] using htrace

/-- A command records nothing but a data exchange in `Ready`. -/
theorem commanded_keeps_traceOrder {b : Byte} (h : TraceOrder s) (hc : Commanded b s t) : TraceOrder t := by
  cases hc with
  | raised e he ht => rw [ht, raise_returned s e he]; exact h.congr rfl
  | encoded _ _ ht | decoded _ _ _ ht => rw [ht]; exact h.congr rfl
  | accepted _ hl _ ht =>
    subst ht
    exact (traceOrder_resetting (setPc_lstate ..)).2 ((traceOrder_uninitialized hl).1 h)
  | sent hl ht => rw [ht]; exact h.sendBytes hl _
  | received hl ht => rw [ht]; exact h.recvBytes hl _ _

/-- A micro-step of `INIT` records the next event of the order. -/
theorem TraceOrder.nextMicroStep (h : TraceOrder s) (hl : s.lstate = .initializing) {op : Instr} {a : Answer}
    {r : Radio} {k : BitVec 3}
    (hnext : (initEvents { s.lcfg with txpEn := false } s.params.useBoostPin true true).take (4 + k.toNat) =
      (initEvents { s.lcfg with txpEn := false } s.params.useBoostPin true true).take (4 + s.istep.toNat) ++
        [.portCall op a]) :
    TraceOrder ((s.exchange op a r).setPc .initializing k) := by
  rw [traceOrder_initializing rfl]
  simpa [(traceOrder_initializing hl).1 h] using hnext.symm

/-- Every step keeps the order of the events (42_radio_port.md R230). -/
theorem step_keeps_traceOrder (hi : Inv s) (h : TraceOrder s) (hstep : step s = .next t) : TraceOrder t := by
  cases step_cases hstep with
  | reset _ ht => rw [ht]; rfl
  | pulseLow _ hl hk ht | pulseHigh _ hl hk ht =>
    rw [traceOrder_resetting hl, hk] at h
    subst ht
    simp [TraceOrder, h, resetEvents, initEvents]
  | broughtUp _ hl hk _ ht | freqSet _ hl hk _ ht | addrSet _ hl hk ht | promiscOff _ hl hk ht =>
    subst ht
    exact h.nextMicroStep hl (by rw [hk]; rfl)
  | bringupFailed _ hl hk _ ht | setfreqFailed _ hl hk _ ht =>
    rw [traceOrder_initializing hl, hk] at h
    subst ht
    refine (traceOrder_faulted rfl).2 ⟨0, ?_, ?_⟩
    · simpa using hi.ind (by simp [hl])
    · simp [h, resetEvents, initEvents, blinkEvents]
  | powerSet _ hl hk he ht | noPower _ hl hk he ht =>
    rw [traceOrder_initializing hl, hk] at h
    subst ht
    exact (traceOrder_ready rfl).2 ⟨[], by simp [h, he, resetEvents, initEvents], rfl⟩
  | blinked _ hl _ ht => rw [ht]; exact h.blink hl
  | waited _ _ hw ht => rw [ht]; exact h.recvBytes (hi.wait hw).1 _ _
  | nothing _ _ _ ht => rw [ht]; exact h
  | command _ rest _ _ _ ht =>
    exact commanded_keeps_traceOrder (s := { s with host := rest }) (h.congr rfl) (exec_command ht)
  | written _ _ _ _ _ _ _ ht => rw [ht, hostWrite_frame]; exact h.congr rfl
  | read _ _ _ _ _ ht | presented _ _ _ _ _ ht => rw [ht]; exact h.congr rfl

end TraceOrder

/-- Whether an event is one that `INIT` records at most once. -/
def isUnrepeated (e : Event) : Bool := isBringup e || isSetfreq e

theorem not_isUnrepeated_of_isTransfer {e : Event} (h : isTransfer e = true) : isUnrepeated e = false := by
  unfold isTransfer at h
  split at h
  · rfl
  · rfl
  · cases h

theorem not_isUnrepeated_of_mem_blinkEvents {n : Nat} {level : Bool} {e : Event} (h : e ∈ blinkEvents n level) :
    isUnrepeated e = false := by
  induction n generalizing level with
  | zero => cases h
  | succ n ih =>
    simp only [blinkEvents, List.mem_cons] at h
    rcases h with rfl | rfl | h
    · rfl
    · rfl
    · exact ih h

/-- An ordered trace is a part of the events of one `INIT` and then no `BRINGUP` and no `SETFREQ`. -/
theorem TraceOrder.sublist {s : State} (h : TraceOrder s) :
    ∃ c boost b1 b2 l, s.trace.Sublist (initEvents c boost b1 b2 ++ l) ∧ ∀ e ∈ l, isUnrepeated e = false := by
  cases hl : s.lstate with
  | uninitialized =>
    exact ⟨s.lcfg, true, true, true, [], by simp [(traceOrder_uninitialized hl).1 h], nofun⟩
  | resetting =>
    refine ⟨s.lcfg, true, true, true, [], ?_, nofun⟩
    rw [(traceOrder_resetting hl).1 h, List.append_nil, initEvents, List.append_assoc]
    exact (List.take_sublist ..).trans (List.sublist_append_left ..)
  | initializing =>
    refine ⟨{ s.lcfg with txpEn := false }, s.params.useBoostPin, true, true, [], ?_, nofun⟩
    rw [(traceOrder_initializing hl).1 h, List.append_nil]
    exact List.take_sublist ..
  | ready =>
    obtain ⟨l, htrace, hall⟩ := (traceOrder_ready hl).1 h
    exact ⟨s.lcfg, s.params.useBoostPin, true, true, l, by rw [htrace],
      fun e he => not_isUnrepeated_of_isTransfer (List.all_eq_true.1 hall e he)⟩
  | faulted =>
    obtain ⟨n, -, ⟨-, htrace⟩ | ⟨-, htrace⟩⟩ := (traceOrder_faulted hl).1 h
    · exact ⟨s.lcfg, s.params.useBoostPin, false, false, blinkEvents n true, by rw [htrace],
        fun _ => not_isUnrepeated_of_mem_blinkEvents⟩
    · exact ⟨s.lcfg, s.params.useBoostPin, true, false, blinkEvents n true, by rw [htrace],
        fun _ => not_isUnrepeated_of_mem_blinkEvents⟩

/-- One `INIT` issues `BRINGUP` once and `SETFREQ` at most once (R197). -/
theorem countP_initEvents (c : LinkCfg) (boost b1 b2 : Bool) :
    (initEvents c boost b1 b2).countP isBringup ≤ 1 ∧ (initEvents c boost b1 b2).countP isSetfreq ≤ 1 := by
  unfold initEvents
  split_ifs <;> simp [resetEvents, List.countP_cons, isBringup, isSetfreq]

/-- An ordered trace holds what one `INIT` issues. -/
theorem TraceOrder.countP_le {s : State} (h : TraceOrder s) :
    s.trace.countP isBringup ≤ 1 ∧ s.trace.countP isSetfreq ≤ 1 := by
  obtain ⟨c, boost, b1, b2, l, hsub, hnone⟩ := h.sublist
  have hnone' : ∀ e ∈ l, isBringup e = false ∧ isSetfreq e = false := fun e he =>
    Bool.or_eq_false_iff.1 (hnone e he)
  have hb : l.countP isBringup = 0 := List.countP_eq_zero.2 fun e he => by simp [hnone' e he]
  have hs : l.countP isSetfreq = 0 := List.countP_eq_zero.2 fun e he => by simp [hnone' e he]
  obtain ⟨hib, his⟩ := countP_initEvents c boost b1 b2
  have hbs := hsub.countP_le (p := isBringup)
  have hss := hsub.countP_le (p := isSetfreq)
  rw [List.countP_append] at hbs hss
  omega

/-- Settles O53: the step keeps the order, and an ordered trace holds each at most once. -/
theorem bringupAndSetfreqAreIssuedOnce : Obligations.BringupAndSetfreqAreIssuedOnce := fun _ _ hi h hstep =>
  (step_keeps_traceOrder hi h hstep).countP_le

end Sys2Proof.Machine
end

section
/-! PROOF. The statements of 42_radio_port.md: the order of the port events (R230), the six port operations of `INIT`
(R221 to R226), and the arguments of what the block issues (R225 to R227). Their lemmas stand before them. -/

namespace Sys2Proof.Machine

/-- Settles O52, step by step. -/
theorem stepKeepsTheTraceOrder : Obligations.StepKeepsTheTraceOrder := fun _ _ => step_keeps_traceOrder

/-! ### The six port operations of `INIT` (R221 to R226) -/

/-- An exchange that a true answer lets go on and a false one ends fatally, as its record, the fields the answer leaves
alone and those it decides. -/
theorem exchange_decided_by_answer {s t : State} {op : Instr} {b : Bool} {r : Radio} {k : BitVec 3} {c : InitCause}
    (ht : t = if b then (s.exchange op (.bool true) r).setPc .initializing k
      else (s.exchange op (.bool false) r).raise (.fatalInit c)) :
    t = { s with trace := s.trace ++ [.portCall op (.bool b)], radio := r, fcause := t.fcause, status := t.status,
                 lstate := t.lstate, istep := t.istep } ∧
      (b = true → t.fcause = s.fcause ∧ t.status = s.status ∧ (t.lstate, t.istep) = (.initializing, k)) ∧
      (b = false → t.fcause = some c ∧ t.status = .fatalInit ∧ (t.lstate, t.istep) = (.faulted, 0)) := by
  rw [raise_fatal_eq] at ht
  subst ht
  cases b with
  | true => exact ⟨rfl, fun _ => ⟨rfl, rfl, rfl⟩, nofun⟩
  | false => exact ⟨rfl, nofun, fun _ => ⟨rfl, rfl, rfl⟩⟩

/-- Settles O26, operation by operation: the pc decides for `RESET`, the answer for `BRINGUP` and `SETFREQ`. -/
theorem portOperationsRecordTheirExchange : Obligations.PortOperationsRecordTheirExchange := fun _ =>
  ⟨fun pin => ⟨exec_reset_high pin, exec_reset_low pin⟩,
    fun cs irq => ⟨_, _, exec_bringup cs irq, rfl, exchange_decided_by_answer rfl⟩,
    fun mhz => ⟨_, _, exec_setfreq mhz, rfl, exchange_decided_by_answer rfl⟩,
    fun _ => rfl, fun _ => rfl, exec_settxpower⟩

/-! ### What a step runs is well-formed -/

theorem microStep_wf {s u : State} {i : Instr} (h : s.microStep = .run i u) : i.wf = true := by
  unfold State.microStep at h
  split at h
  case h_7 => split_ifs at h; cases h; rfl
  case h_8 => cases h
  all_goals cases h; rfl

/-- The host issues commands and presents frames, and both come from the decoder. -/
theorem hostTurn_wf {s u : State} {i : Instr} (h : s.hostTurn = .run i u) : i.wf = true := by
  unfold State.hostTurn at h
  split at h
  case h_2 => split_ifs at h; cases h; exact decodeCmd_wf _
  case h_4 =>
    split at h
    · cases h; exact wf_of_decodeFrame ‹_›
    · cases h
  all_goals cases h

theorem turn_wf {s u : State} {i : Instr} (h : s.turn = .run i u) : i.wf = true := by
  unfold State.turn at h
  split at h
  · cases h
  · split at h
    · exact microStep_wf h
    · exact microStep_wf h
    · split_ifs at h
    all_goals
      split_ifs at h
      · cases h; rfl
      · exact hostTurn_wf h

/-! ### The arguments of what the block issues (R225 to R227) -/

/-- What the block's rules ask of the arguments of an issued operation (R225 to R227). -/
def LegalEvent (p : Params) : Event → Prop
  | .portCall (.setpromisc on) _ => on = false
  | .portCall (.settxpower dbm boost) _ =>
    5 ≤ sext 8 dbm.toNat ∧ sext 8 dbm.toNat ≤ 23 ∧ boost = p.useBoostPin
  | .portCall (.sendbytes buf) _ => buf.length = 0 ∨ buf.length = 7 ∨ buf.length = 9
  | _ => True

/-- Every event that stands in the trace of `t` past those of `s` is legal. -/
def RecordsLegal (s t : State) : Prop := ∀ e ∈ t.trace.drop s.trace.length, LegalEvent s.params e

section Records

variable {s t : State}

theorem recordsLegal_of_trace_eq (h : t.trace = s.trace) : RecordsLegal s t := by
  simp [RecordsLegal, h]

theorem recordsLegal_of_append {es : List Event} (h : t.trace = s.trace ++ es)
    (hes : ∀ e ∈ es, LegalEvent s.params e) : RecordsLegal s t := by
  rwa [RecordsLegal, h, List.drop_left]

@[simp] theorem hardReset_trace : s.hardReset.trace = [] := rfl

/-- The frame in `TXB` has 0, 7 or 9 bytes (10_state.md R47). -/
theorem Inv.txlen_toNat (h : Inv s) : s.txlen.toNat = 0 ∨ s.txlen.toNat = 7 ∨ s.txlen.toNat = 9 := by
  rcases h.txlen with h | h | h <;> simp [h]

/-- The latched power, if there is one, is in range: the lock is closed in `Initializing` (41_link_layer.md R185). -/
theorem Inv.latched_power (h : Inv s) (hl : s.lstate = .initializing) (he : s.lcfg.txpEn = true) :
    5 ≤ sext 8 s.lcfg.txp.toNat ∧ sext 8 s.lcfg.txp.toNat ≤ 23 :=
  (cfgIllegal_eq_false s.lcfg).1 (h.power (h.lock.2 (by simp [hl]))) he

theorem recvBytes_recordsLegal (e : Bool) (m : Word) : RecordsLegal s (s.recvBytes e m) := by
  cases recvBytes_cases e m s with
  | withheld _ _ ht => exact recordsLegal_of_trace_eq (by rw [ht])
  | nothing _ ht | bytes _ _ ht => exact recordsLegal_of_append (by rw [ht]) (by simp [LegalEvent])

/-- The frame that `SEND` hands over is as long as `TXLEN` says. -/
theorem commanded_recordsLegal {b : Byte} (hi : Inv s) (h : Commanded b s t) : RecordsLegal s t := by
  cases h with
  | sent _ ht =>
    subst ht
    refine recordsLegal_of_append (sendBytes_trace ..) (List.forall_mem_singleton.2 ?_)
    rw [LegalEvent, length_readBytes]
    exact hi.txlen_toNat
  | received _ ht => subst ht; exact recvBytes_recordsLegal _ _
  | raised _ _ ht | encoded _ _ ht | decoded _ _ _ ht | accepted _ _ _ ht =>
    subst ht; exact recordsLegal_of_trace_eq (by simp)

/-- Every operation a step issues has legal arguments. -/
theorem step_recordsLegal (hi : Inv s) (h : step s = .next t) : RecordsLegal s t := by
  cases step_cases h with
  | reset _ ht => subst ht; simp [RecordsLegal]
  | powerSet _ hl _ he ht =>
    obtain ⟨hmin, hmax⟩ := hi.latched_power hl he
    subst ht
    exact recordsLegal_of_append rfl (by simp [LegalEvent, hmin, hmax])
  | pulseLow _ _ _ ht | pulseHigh _ _ _ ht | blinked _ _ _ ht | broughtUp _ _ _ _ ht | freqSet _ _ _ _ ht
  | addrSet _ _ _ ht | promiscOff _ _ _ ht | bringupFailed _ _ _ _ ht | setfreqFailed _ _ _ _ ht =>
    subst ht; exact recordsLegal_of_append rfl (by simp [LegalEvent])
  | waited _ _ _ ht => subst ht; exact recvBytes_recordsLegal _ _
  | command _ rest _ _ _ ht =>
    exact commanded_recordsLegal (s := { s with host := rest }) (hi.agents rest s.hostReads s.radio s.trace)
      (exec_command ht)
  | noPower _ _ _ _ ht | nothing _ _ _ ht | written _ _ _ _ _ _ _ ht | read _ _ _ _ _ ht
  | presented _ _ _ _ _ ht => subst ht; exact recordsLegal_of_trace_eq (by simp)

end Records

/-- Settles O46: the decoder gives well-formed instructions, and each recorded event is legal. -/
theorem issuedPortOperationsAreLegal : Obligations.IssuedPortOperationsAreLegal := by
  refine fun s t hi h => ⟨fun i u => turn_wf, fun e he => ?_⟩
  have hlegal := step_recordsLegal hi h e he
  refine ⟨?_, ?_, ?_⟩
  · rintro on a rfl; exact hlegal
  · rintro dbm boost a rfl; exact hlegal
  · rintro buf a rfl; exact hlegal

end Sys2Proof.Machine
end

section
/-! PROOF. The statement of 60_exceptions.md: the codes each command can leave in `STATUS` (R250), command by command.
The lemmas stand before it. -/

namespace Sys2Proof.Machine

/-! ### The codes of each command's row (60_exceptions.md R250) -/

section CommandStatus

variable {s t : State}

theorem encodeFrame_status (fits : Bool) (bytes : List Byte) :
    (s.encodeFrame fits bytes).status ∈ [Status.ok, .encRange] := by
  unfold State.encodeFrame
  split_ifs
  · simp [excStatus]
  · simp

theorem exec_decAbs_status (h : exec .decAbs s = .next t) : t.status ∈ [Status.ok, .badLength] := by
  by_cases hlen : s.rxlen = 9
  · cases (exec_decAbs_of_nine hlen).symm.trans h; simp
  · cases (exec_decAbs_of_badLength hlen).symm.trans h; simp

theorem exec_decRel_status (h : exec .decRel s = .next t) : t.status ∈ [Status.ok, .badLength, .badMagic] := by
  by_cases hlen : s.rxlen = 7
  · by_cases hm : s.rxb.read 0 = Config.magic0 ∧ s.rxb.read 1 = Config.magic1
    · cases (exec_decRel_of_magic hlen hm.1 hm.2).symm.trans h; simp
    · cases (exec_decRel_of_badMagic hlen hm).symm.trans h; simp
  · cases (exec_decRel_of_badLength hlen).symm.trans h; simp

/-- A refused `INIT` has its code; an accepted one writes `STATUS` only when its micro-steps end. -/
theorem exec_init_status (h : exec .init s = .next t) :
    t.status ∈ [Status.wrongState, .cfgInvalid] ∨ (t.status = s.status ∧ t.lstate = .resetting) := by
  by_cases hl : s.lstate = .uninitialized
  · cases hc : cfgIllegal s.cfg with
    | true => cases (exec_init_of_illegal hl hc).symm.trans h; simp
    | false => cases (exec_init_of_legal hl hc).symm.trans h; exact .inr ⟨rfl, rfl⟩
  · cases (exec_init_of_wrongState hl).symm.trans h; simp

theorem exec_send_of_not_ready (hl : s.lstate ≠ .ready) :
    exec .send s = .next { s with status := .wrongState } := if_pos hl

theorem exec_recv_of_not_ready (hl : s.lstate ≠ .ready) :
    exec .recv s = .next { s with status := .wrongState } := if_pos hl

/-- In `Ready` the peripheral's answer decides between `OK` and `SendError`. -/
theorem exec_send_status (h : exec .send s = .next t) : t.status ∈ [Status.ok, .wrongState, .sendError] := by
  by_cases hl : s.lstate = .ready
  · cases (exec_send_of_ready hl).symm.trans h
    rw [sendBytes_eq]
    cases s.radio.sendbytesAnswer <;> simp
  · cases (exec_send_of_not_ready hl).symm.trans h; simp

/-- In `Ready` the exchange ends with its code, unless the answer is withheld (log 6). -/
theorem exec_recv_status (h : exec .recv s = .next t) :
    t.status ∈ [Status.ok, .wrongState, .receiveError] ∨ (t.status = s.status ∧ t.rxWait = true) := by
  by_cases hl : s.lstate = .ready
  · cases (exec_recv_of_ready hl).symm.trans h
    cases recvBytes_cases s.rxTmoEn s.rxTmo s with
    | withheld _ _ ht => rw [ht]; exact .inr ⟨rfl, rfl⟩
    | nothing _ ht | bytes _ _ ht => rw [ht]; simp
  · cases (exec_recv_of_not_ready hl).symm.trans h; simp

end CommandStatus

/-- Settles O35, command by command. -/
theorem commandsRaiseOnlyTheirExceptions : Obligations.CommandsRaiseOnlyTheirExceptions := by
  refine fun s t => ⟨?_, exec_decAbs_status, exec_decRel_status, exec_init_status, exec_send_status, exec_recv_status,
    ?_⟩
  · rw [exec_encAbs, exec_encRel]
    rintro (h | h) <;> cases h <;> exact encodeFrame_status _ _
  · rintro b h
    cases h; rfl

end Sys2Proof.Machine
end

section
/-! PROOF. The statement of 70_reset_and_hazards.md on units with other local parameters (R286). The lemmas on
coordinates in degrees stand before it. -/

namespace Sys2Proof.Machine

/-! ### Coordinates in degrees (00_scope.md R24) -/

section Degrees

variable {p p' : Params}

/-- Values within half of a unit `q` differ by at most half a unit over a denominator of `k` units. -/
theorem abs_div_sub_div_le {x c : Int} {q k d : Nat} (hq : 0 < q) (hd : d = k * q) (h : 2 * |x - c| ≤ q) :
    |(x : ℚ) / d - (c : ℚ) / d| ≤ 1 / (2 * k) := by
  have hq' : (0 : ℚ) < q := by exact_mod_cast hq
  have h' : 2 * |(x : ℚ) - c| ≤ q := by exact_mod_cast h
  rw [← sub_div, abs_div, Nat.abs_cast, hd]
  calc |(x : ℚ) - c| / (k * q : Nat) ≤ (q / 2) / (k * q : Nat) := by gcongr; linarith
    _ = 1 / (2 * k) := by push_cast; field_simp

/-- A multiple of the absolute unit is a number of millionths of a degree. -/
theorem absUnits_div_coordDen (hv : p.Valid) (n : Int) :
    ((n * qAbs p : Int) : ℚ) / p.coordDen = n / 1000000 := by
  obtain ⟨hpos, -, hden⟩ := q_of_valid p hv
  have hpos' : (0 : ℚ) < qAbs p := by exact_mod_cast hpos
  rw [hden]
  push_cast
  field_simp

/-- A multiple of the relative unit from a reference is a number of hundred-thousandths of a degree from it. -/
theorem relUnits_div_coordDen (hv : p.Valid) (ref n : Int) :
    ((ref + n * qRel p : Int) : ℚ) / p.coordDen = ref / p.coordDen + n / 100000 := by
  obtain ⟨hpos, hq, hden⟩ := q_of_valid p hv
  have hpos' : (0 : ℚ) < qAbs p := by exact_mod_cast hpos
  rw [hq, hden]
  push_cast
  field_simp
  ring

/-- The sender's absolute field in the receiver's units is the sender's coordinate within half a unit. -/
theorem toAbs_degrees_le (hv : p.Valid) (hv' : p'.Valid) (c : Int) :
    |((toAbs p c * qAbs p' : Int) : ℚ) / p'.coordDen - (c : ℚ) / p.coordDen| ≤ 1 / 2000000 := by
  obtain ⟨hpos, -, hden⟩ := q_of_valid p hv
  rw [absUnits_div_coordDen hv', ← absUnits_div_coordDen hv]
  exact (abs_div_sub_div_le hpos hden (toAbs_restores p hv c).1).trans (by norm_num)

/-- The sender's relative field in the receiver's units, from the same reference in degrees, is the sender's
coordinate within half a unit. -/
theorem toRel_degrees_le (hv : p.Valid) (hv' : p'.Valid) (c : Int) {ref ref' : Int}
    (href : (ref' : ℚ) / p'.coordDen = (ref : ℚ) / p.coordDen) :
    |((ref' + toRel p c ref * qRel p' : Int) : ℚ) / p'.coordDen - (c : ℚ) / p.coordDen| ≤ 1 / 200000 := by
  obtain ⟨hpos, hq, hden⟩ := q_of_valid p hv
  rw [relUnits_div_coordDen hv', href, ← relUnits_div_coordDen hv]
  exact (abs_div_sub_div_le (k := 100000) (by omega) (by omega) (toRel_restores p hv c ref).1).trans (by norm_num)

end Degrees

/-! ### Frames between units (R286) -/

/-- Settles O14: the frame holds the sender's rounded values, the receiver scales them to its own units, and in degrees
the two scales cancel. -/
theorem framesCrossBetweenUnits : Obligations.FramesCrossBetweenUnits := by
  intro s t r hvs hvr hm hfault hbo hreflat hreflon hok
  refine ⟨fun henc hlen hb => ?_, fun henc hlen hb => ?_⟩
  · obtain ⟨⟨hblat, hblon, -⟩, hfits⟩ := received_absFrame hm henc hok hb
    obtain ⟨hla, hlo⟩ := (absFits_iff s).1 (hfits hfault)
    obtain ⟨u, hu, hs, -, hlat, hlon⟩ := decAbs_of_fits hvr hbo hlen hla hlo hblat hblon
    exact ⟨u, hu, hs, hlat ▸ toAbs_degrees_le hvs hvr s.inLat, hlon ▸ toAbs_degrees_le hvs hvr s.inLon⟩
  · obtain ⟨⟨h0, h1, hblat, hblon, -⟩, hfits⟩ := received_relFrame hm henc hok hb
    obtain ⟨hdla, hdlo⟩ := (relFits_iff s).1 (hfits hfault)
    obtain ⟨u, hu, hs, -, hlat, hlon⟩ := decRel_of_fits hvr hbo hlen h0 h1 hdla hdlo hblat hblon
    exact ⟨u, hu, hs, hlat ▸ toRel_degrees_le hvs hvr s.inLat hreflat,
      hlon ▸ toRel_degrees_le hvs hvr s.inLon hreflon⟩

end Sys2Proof.Machine
end
